-- ==== Sys2Proof/Word.lean ====
section
/-! DEFINITION. The word types of the ShiftRegisterReader: a command word, its operand, a vector of `WIDTH` bits. -/

namespace Sys2Proof

/-- The command word as the `cmd` port carries it: 20 bits (30_encoding.md R46, R48). -/
abbrev Word := BitVec 20

/-- The operand field of a command, and the `pw` register: 16 bits (00_scope.md R7). -/
abbrev Arg := BitVec 16

/-- An ordered bit vector; element `i` stands at position `i` of the list (00_scope.md, notation).
That its length is `WIDTH` is part of the state invariant (Sys2Proof.Machine.State.Inv). -/
abbrev Bits := List Bool

end Sys2Proof
end

