-- ==== Sys2Proof/Config.lean ====
section
/-! DEFINITION. The implementation parameters of 00_scope.md section 3, the build-time check of them, and the
one free value: the level of the data line where the state lists no answer of the environment. -/

namespace Sys2Proof.Config

/-- The upper bound this spec sets on `CHIP_COUNT` (00_scope.md R5). -/
def maxChipCount : Nat := 8191

/-- Why a block is not built (60_exceptions.md R93). -/
inductive ConfigError where
  /-- `CHIP_COUNT == 0`. -/
  | noChips
  /-- `CHIP_COUNT > 8191`. -/
  | tooManyChips
deriving DecidableEq, Repr

/-- What the build refuses a chip count for, if anything (60_exceptions.md R93). -/
def chipCountError (n : Nat) : Option ConfigError :=
  if n = 0 then some .noChips
  else if maxChipCount < n then some .tooManyChips
  else none

/-- `WIDTH = CHIP_COUNT * 8` (00_scope.md R6). -/
def width (chipCount : Nat) : Nat := chipCount * 8

/-- `PW_DEFAULT`, the value of `pw` after reset (00_scope.md R8). -/
def pwDefault : Arg := 5#16

/-- The reset level of the load line (10_state.md R22). -/
def loadReset : Bool := true

/-- The reset level of the clock line (10_state.md R22). -/
def clkReset : Bool := false

/-- The reset level of the clock-enable line (10_state.md R22). -/
def ceReset : Bool := true

/-- The chip count of the one block that `State.reset` names. DESIGN CHOICE (log entry 1): the spec gives no
default; every definition of the machine works for every chip count that the state carries. -/
def chipCount : Nat := 2

/-- FREE VALUE (log entry 3): the level of the data line at the `n`-th sample, where the state lists no answer of
the environment. No body: nothing can be proved of it (20_memory.md R39: "a free answer of the oracle"). -/
opaque freeLevel : Nat → Bool

end Sys2Proof.Config
end

