-- ==== Sys2Proof/Machine/State.lean ====
section
/-! DEFINITION. The state of the block (10_state.md R14), the ports through which the other two agents reach it
(00_scope.md R11, 30_encoding.md R46), the model's record of what it did (00_scope.md R12), and the state after reset. -/

namespace Sys2Proof.Machine

open Sys2Proof

/-- The sequencer's position (10_state.md R18). -/
inductive Phase where
  | idle | ceHi | ldLo | ldHi | ceLo | sample | ckHi | ckLo
deriving DecidableEq, Repr

/-- The three output pins (20_memory.md R37). -/
inductive Pin where
  | load | clk | ce
deriving DecidableEq, Repr

/-- An event of the pin trace (00_scope.md R12). -/
inductive PinEvent where
  /-- `Out(p, v)`. -/
  | out (p : Pin) (v : Bool)
  /-- `Wait(n)`. -/
  | wait (n : Arg)
  /-- `In(DATA) = b`. -/
  | read (b : Bool)
deriving DecidableEq, Repr

/-- The three statuses a response can carry (30_encoding.md R51); code 3 is never produced and has no constructor. -/
inductive Status where
  | ok | indexRange | illegalCmd
deriving DecidableEq, Repr

/-- A response: `rsp_status`, `rsp_data`, `rsp_vec` (30_encoding.md R50). -/
structure Response where
  status : Status
  data : Arg
  vec : Bits
deriving DecidableEq, Repr

/-- The two run-time faults of the block (60_exceptions.md R92). They are raised by `State.raise` (Ops.lean), which
answers the command with a status; the machine goes on, so they are no fault of a step. -/
inductive CommandFault where
  /-- `IndexOutOfRange(i)`: raised by the five indexed queries (R94). -/
  | indexOutOfRange (i : Nat)
  /-- `IllegalCommand(op)`: raised by the six reserved words (R95). -/
  | illegalCommand (op : BitVec 4)
deriving DecidableEq, Repr

/-- An input line that the outside drives: its levels in the coming steps, oldest first, and the level it keeps after
them. Log entries 6 and 7. -/
structure Line where
  soon : List Bool
  rest : Bool
deriving DecidableEq, Repr

/-- The state. The first ten fields are the block's (10_state.md R14, with the parameter `CHIP_COUNT` beside them, R24);
the next five are the ports the host, the time reference and the environment drive; the last three are what the block
answered and the record of it. -/
structure State where
  /-- `CHIP_COUNT`, fixed when the block is built; no step changes it (00_scope.md R5; log entry 1). -/
  chipCount : Nat
  /-- `cur` (10_state.md R15). -/
  cur : Bits
  /-- `prev` (10_state.md R16). -/
  prev : Bits
  /-- `pw` (10_state.md R17). -/
  pw : Arg
  /-- `phase` (10_state.md R18). -/
  phase : Phase
  /-- `idx` (10_state.md R20). -/
  idx : Nat
  /-- `o_load` (10_state.md R22). -/
  oLoad : Bool
  /-- `o_clk` (10_state.md R22). -/
  oClk : Bool
  /-- `o_ce` (10_state.md R22). -/
  oCe : Bool
  /-- `hold`, the part of a timed hold that remains (10_state.md R21). -/
  hold : Arg
  /-- The port `rst` (30_encoding.md R46; log entry 6). -/
  rst : Line
  /-- The port `tick` (30_encoding.md R46; log entry 7). -/
  tick : Line
  /-- The port `cmd`/`cmd_valid`: what the host presents, in order. `some w` is presented until the block accepts it,
  `none` is one step in which the host presents nothing (30_encoding.md R46, R47; log entry 5). -/
  cmds : List (Option Word)
  /-- The port `pin_data`: the environment's answers to the coming samples, oldest first (00_scope.md R12; log entry 3). -/
  data : List Bool
  /-- How many samples have been taken: the argument of the free value `Config.freeLevel` (log entry 4). -/
  draws : Nat
  /-- The response ports in the step just taken; `none` is `rsp_valid = 0` (30_encoding.md R50). -/
  rsp : Option Response
  /-- Every response given, oldest first (70_reset_and_hazards.md R124). -/
  responses : List Response
  /-- The pin trace, oldest event first (00_scope.md R12). -/
  trace : List PinEvent
deriving DecidableEq, Repr

/-- Reasons a step or a launch can stop. -/
inductive Fault where
  /-- Raised by `Machine.launch` alone, when a block is built with a chip count it refuses (60_exceptions.md R93); no
  step raises it. Safe: there is no block, so nothing is claimed of one. -/
  | configError (e : Config.ConfigError)
deriving DecidableEq, Repr

/-- Reasons an instruction has no meaning. -/
inductive Refusal where
  /-- Raised by an arm of `exec` whose instruction has no meaning yet; no arm does. Safe. -/
  | notModelled (mnemonic : String)
deriving DecidableEq, Repr

/-- The state after reset of a block built with `n` chips (10_state.md R30): the block idle, nothing presented on any
port, the time reference alive (log entry 7), nothing recorded. -/
def State.resetWith (n : Nat) : State where
  chipCount := n
  cur := List.replicate (Config.width n) false
  prev := List.replicate (Config.width n) false
  pw := Config.pwDefault
  phase := .idle
  idx := 0
  oLoad := Config.loadReset
  oClk := Config.clkReset
  oCe := Config.ceReset
  hold := 0#16
  rst := ⟨[], false⟩
  tick := ⟨[], true⟩
  cmds := []
  data := []
  draws := 0
  rsp := none
  responses := []
  trace := []

/-- The machine right after reset: the block of `Config.chipCount` chips (log entry 1). -/
def State.reset : State := State.resetWith Config.chipCount

end Sys2Proof.Machine
end

