-- ==== Sys2Proof/Machine/Flags.lean ====
section
/-! DEFINITION. The block has no flags (10_state.md R25). Its only condition outputs are the response status and
`cmd_ready`, both computed here (30_encoding.md R47, R51). -/

namespace Sys2Proof.Machine

open Sys2Proof

/-- `rsp_status` as the two port lines carry it (30_encoding.md R51). -/
def Status.code : Status → BitVec 2
  | .ok => 0#2
  | .indexRange => 1#2
  | .illegalCmd => 2#2

/-- `status_of(F)` (60_exceptions.md R92). -/
def statusOf : CommandFault → Status
  | .indexOutOfRange _ => .indexRange
  | .illegalCommand _ => .illegalCmd

/-- `cmd_ready = (phase == IDLE)` (30_encoding.md R47). -/
def State.cmdReady (s : State) : Bool := decide (s.phase = .idle)

/-- `rsp_valid`, as it stands in the step just taken (30_encoding.md R50). -/
def State.rspValid (s : State) : Bool := s.rsp.isSome

end Sys2Proof.Machine
end

