-- ==== Sys2Proof/Syntax.lean ====
section
/-! DEFINITION. The commands of the block: one constructor per row of spec/opcode_table.json (30_encoding.md R53). -/

namespace Sys2Proof

/-- A command. The index form carries `i` as an unsigned number (30_encoding.md R49 (a)), the value form the new
pulse width (R49 (b)); the no-operand form and the reserved rows carry nothing, since `arg` is ignored there
(R49 (c), R54, R55). -/
inductive Instr where
  /-- `POLL` (R59). -/
  | poll
  /-- `STATE i` (R76). -/
  | state (i : Nat)
  /-- `LAST i` (R77). -/
  | last (i : Nat)
  /-- `CHANGED i` (R78). -/
  | changed (i : Nat)
  /-- `CHANGED_ANY` (R79). -/
  | changedAny
  /-- `PRESSED i` (R80). -/
  | pressed (i : Nat)
  /-- `RELEASED i` (R81). -/
  | released (i : Nat)
  /-- `RAW_STATE` (R82). -/
  | rawState
  /-- `GET_PW` (R87). -/
  | getPw
  /-- `SET_PW v` (R88). -/
  | setPw (v : Arg)
  /-- Reserved `op = 0x0` (R55, R95). -/
  | reserved0
  /-- Reserved `op = 0xB` (R55, R95). -/
  | reservedB
  /-- Reserved `op = 0xC` (R55, R95). -/
  | reservedC
  /-- Reserved `op = 0xD` (R55, R95). -/
  | reservedD
  /-- Reserved `op = 0xE` (R55, R95). -/
  | reservedE
  /-- Reserved `op = 0xF` (R55, R95). -/
  | reservedF
deriving DecidableEq, Repr

end Sys2Proof
end

