-- ==== Sys2Proof/WellFormed.lean ====
section
/-! DEFINITION. Which commands have a word: an index operand fits the 16-bit operand field (30_encoding.md R48, R49).
Which chip counts have a block: `CHIP_COUNT` in 1..8191 (00_scope.md R5). -/

namespace Sys2Proof

/-- An index that the operand field can hold, `0..65535` (30_encoding.md R49). It says nothing about the range check
`i < WIDTH`, which the command itself makes when it runs. -/
def indexFits (i : Nat) : Bool := decide (i < 2 ^ 16)

/-- A command has an encoding: its index, if it has one, fits the operand field. -/
def Instr.wf : Instr → Bool
  | .poll => true
  | .state i => indexFits i
  | .last i => indexFits i
  | .changed i => indexFits i
  | .changedAny => true
  | .pressed i => indexFits i
  | .released i => indexFits i
  | .rawState => true
  | .getPw => true
  | .setPw _ => true
  | .reserved0 => true
  | .reservedB => true
  | .reservedC => true
  | .reservedD => true
  | .reservedE => true
  | .reservedF => true

/-- A chip count that a block can be built with (00_scope.md R5). -/
def chipCountOk (n : Nat) : Bool := (Config.chipCountError n).isNone

end Sys2Proof
end

