-- ==== Sys2Proof/Decode.lean ====
section
/-! DEFINITION. Decoding a command word and encoding a command, both from the opcode map (30_encoding.md R48, R53). -/

namespace Sys2Proof

/-- `op = cmd[19:16]` (30_encoding.md R48). -/
def opField (w : Word) : BitVec 4 := w.extractLsb' 16 4

/-- `arg = cmd[15:0]` (30_encoding.md R48). -/
def argField (w : Word) : Arg := w.extractLsb' 0 16

/-- The decoder looks at `op` alone to tell the command (30_encoding.md R53, R56). It is total: each of the sixteen
values of `op` has a row, and the last arm is `op = 0xF`. -/
def decode (w : Word) : Instr :=
  match opField w with
  | 0x0#4 => .reserved0
  | 0x1#4 => .poll
  | 0x2#4 => .state (argField w).toNat
  | 0x3#4 => .last (argField w).toNat
  | 0x4#4 => .changed (argField w).toNat
  | 0x5#4 => .changedAny
  | 0x6#4 => .pressed (argField w).toNat
  | 0x7#4 => .released (argField w).toNat
  | 0x8#4 => .rawState
  | 0x9#4 => .getPw
  | 0xA#4 => .setPw (argField w)
  | 0xB#4 => .reservedB
  | 0xC#4 => .reservedC
  | 0xD#4 => .reservedD
  | 0xE#4 => .reservedE
  | _ => .reservedF

/-- Why a number is no command word. -/
inductive DecodeError where
  /-- It has a bit above `cmd[19]`: the port has 20 lines (30_encoding.md R46, R48). -/
  | widerThanThePort
deriving DecidableEq, Repr

/-- Decoding of a number, total on every number: one that does not fit the 20-bit port is rejected by name. -/
def decodeNumber (n : Nat) : Except DecodeError Instr :=
  if n < 2 ^ 20 then .ok (decode (BitVec.ofNat 20 n)) else .error .widerThanThePort

/-- The instruction the decoder reads from the `nbits` bits of `w`, numbered as spec/opcode_table.json numbers them
(bit 0 is `cmd[0]`); the bits above `nbits` are zero. -/
def decodeTableWord (nbits w : Nat) : Option Instr :=
  match decodeNumber (w % 2 ^ nbits) with
  | .ok i => some i
  | .error _ => none

/-- The `op` of a command (30_encoding.md R53). -/
def Instr.opcode : Instr → BitVec 4
  | .poll => 0x1#4
  | .state _ => 0x2#4
  | .last _ => 0x3#4
  | .changed _ => 0x4#4
  | .changedAny => 0x5#4
  | .pressed _ => 0x6#4
  | .released _ => 0x7#4
  | .rawState => 0x8#4
  | .getPw => 0x9#4
  | .setPw _ => 0xA#4
  | .reserved0 => 0x0#4
  | .reservedB => 0xB#4
  | .reservedC => 0xC#4
  | .reservedD => 0xD#4
  | .reservedE => 0xE#4
  | .reservedF => 0xF#4

/-- The `arg` of a command: the index, the value, or zero where it is ignored ("A host should write them as zero",
30_encoding.md R54). In a reserved word the zero is a DESIGN CHOICE (log entry 10). -/
def Instr.operand : Instr → Arg
  | .poll => 0#16
  | .state i => BitVec.ofNat 16 i
  | .last i => BitVec.ofNat 16 i
  | .changed i => BitVec.ofNat 16 i
  | .changedAny => 0#16
  | .pressed i => BitVec.ofNat 16 i
  | .released i => BitVec.ofNat 16 i
  | .rawState => 0#16
  | .getPw => 0#16
  | .setPw v => v
  | .reserved0 => 0#16
  | .reservedB => 0#16
  | .reservedC => 0#16
  | .reservedD => 0#16
  | .reservedE => 0#16
  | .reservedF => 0#16

/-- The word `(op << 16) | arg` (30_encoding.md R57) of a command. -/
def encode (i : Instr) : Word := i.opcode ++ i.operand

end Sys2Proof
end

