-- ==== Sys2Proof/Machine/Operands.lean ====
section
/-! DEFINITION. The operand forms and the input-index space: the range check, reading and writing one bit of a vector,
the index map, and the packing of a vector as a number (20_memory.md R31 to R42). -/

namespace Sys2Proof.Machine

open Sys2Proof

/-- `WIDTH` of the block at hand (00_scope.md R6). -/
def State.width (s : State) : Nat := Config.width s.chipCount

/-- `in_range(i)`: the whole operand, unsigned, against `WIDTH` (40_poll.md R72 (d)). -/
def State.inRange (s : State) (i : Nat) : Bool := decide (i < s.width)

/-- `0_n` (00_scope.md, notation). -/
def zeros (n : Nat) : Bits := List.replicate n false

/-- `v[i]` for an index that has passed the range check (20_memory.md R32). -/
def readBit (v : Bits) (i : Nat) : Bool := v.getD i false

/-- `v[i] <- b` (20_memory.md R33): no other position changes. -/
def writeBit (v : Bits) (i : Nat) (b : Bool) : Bits := v.set i b

/-- `zext_16(b)`, how a boolean result is returned (30_encoding.md R50). -/
def bitData (b : Bool) : Arg := (BitVec.ofBool b).zeroExtend 16

/-- `chip_id = i / 8` (20_memory.md R35). -/
def chipId (i : Nat) : Nat := i / 8

/-- `bit_in_chip = i % 8` (20_memory.md R35). -/
def bitInChip (i : Nat) : Nat := i % 8

/-- A vector as a number: element `i` has weight `2^i` (20_memory.md R40 (b)). -/
def bitsToNat : Bits → Nat
  | [] => 0
  | b :: v => b.toNat + 2 * bitsToNat v

/-- The vector of `n` elements that a number stands for, element `i` its bit of weight `2^i` (20_memory.md R40 (b)). -/
def bitsOfNat (n x : Nat) : Bits := (List.range n).map x.testBit

/-- Byte `c` of a vector, `v[8c+7:8c]`: the bits of chip `c` (20_memory.md R40 (c)). -/
def chipBits (v : Bits) (c : Nat) : Bits := (v.drop (8 * c)).take 8

end Sys2Proof.Machine
end

