-- ==== Sys2Proof/Machine/Ops.lean ====
section
/-! DEFINITION. The shared operations: the input lines, acceptance of a command, the response, raising a fault (this
block's whole exception mechanism), the pin primitives `Out`, `In(DATA)` and `Wait`, reset, and building a block. -/

namespace Sys2Proof.Machine

open Sys2Proof

/-- The level of an input line in the coming step. -/
def Line.level (l : Line) : Bool := l.soon.headD l.rest

/-- The line one step later. -/
def Line.pop (l : Line) : Line := ⟨l.soon.tail, l.rest⟩

/-- The line with a low level in the coming step and everything after it unchanged. -/
def Line.lowered (l : Line) : Line := ⟨false :: l.soon.tail, l.rest⟩

/-- What the host has left to present after a step in which nothing was accepted: a word waits, a pause is over
(30_encoding.md R47). -/
def waiting : List (Option Word) → List (Option Word)
  | none :: rest => rest
  | cs => cs

/-- The word on the command port, if `cmd_valid = 1` (30_encoding.md R46). -/
def State.presented (s : State) : Option Word := s.cmds.head?.join

/-- Every step moves the input lines on and begins with `rsp_valid = 0` (30_encoding.md R50). -/
def State.clock (s : State) : State :=
  { s with rst := s.rst.pop, tick := s.tick.pop, cmds := waiting s.cmds, rsp := none }

/-- The step that accepts a command: the block reads the word once and the host removes it (30_encoding.md R47). -/
def State.accept (s : State) : State := { s.clock with cmds := s.cmds.tail }

/-- `respond(status, data, vec)` (00_scope.md, notation; 30_encoding.md R50). -/
def State.respond (s : State) (r : Response) : State :=
  { s with rsp := some r, responses := s.responses ++ [r] }

/-- A response with status `OK`. -/
def State.respondOk (s : State) (data : Arg) (vec : Bits) : State := s.respond ⟨.ok, data, vec⟩

/-- Taking a fault, `raise F(info)`: respond `(status_of(F), 0x0000, 0_W)` and change nothing else (60_exceptions.md
R91). Nothing is saved, no mode changes, control goes nowhere (R98), so there is no return from it (R99). -/
def State.raise (s : State) (f : CommandFault) : State :=
  s.respond ⟨statusOf f, 0#16, zeros s.width⟩

/-- The level a pin's output register drives (20_memory.md R38). -/
def State.pinLevel (s : State) : Pin → Bool
  | .load => s.oLoad
  | .clk => s.oClk
  | .ce => s.oCe

/-- `Out(p, v)`: write the output register of one pin and record the event, also where the register held `v` already
(00_scope.md, notation; 20_memory.md R38). -/
def State.out (s : State) (p : Pin) (v : Bool) : State :=
  { s with
    oLoad := if p = .load then v else s.oLoad
    oClk := if p = .clk then v else s.oClk
    oCe := if p = .ce then v else s.oCe
    trace := s.trace ++ [.out p v] }

/-- `Wait(pw)`: record the event and load the hold counter with `pw` (40_poll.md R66, 10_state.md R21). -/
def State.wait (s : State) : State :=
  { s with hold := s.pw, trace := s.trace ++ [.wait s.pw] }

/-- One step of a hold: the counter goes down when `tick` pulses, and nothing else changes (10_state.md R21,
40_poll.md R66). -/
def State.passTime (s : State) (tick : Bool) : State :=
  { s with hold := if tick then s.hold - 1#16 else s.hold }

/-- `phase <- p`. -/
def State.goto (s : State) (p : Phase) : State := { s with phase := p }

/-- The level of the data pin now: the environment's answer, free where the state lists none (20_memory.md R39). -/
def State.dataLevel (s : State) : Bool := s.data.headD (Config.freeLevel s.draws)

/-- `cur[idx] <- In(DATA)`: one sample, recorded, stored at `idx` (40_poll.md R65, 20_memory.md R39). -/
def State.takeSample (s : State) : State :=
  { s with
    cur := writeBit s.cur s.idx s.dataLevel
    data := s.data.tail
    draws := s.draws + 1
    trace := s.trace ++ [.read s.dataLevel] }

/-- The frame latch at the start of a poll: `prev <- cur; cur <- 0_W; idx <- W-1` (40_poll.md R60). -/
def State.latchFrame (s : State) : State :=
  { s with prev := s.cur, cur := zeros s.width, idx := s.width - 1 }

/-- `idx <- idx - 1` (40_poll.md R68). -/
def State.countDown (s : State) : State := { s with idx := s.idx - 1 }

/-- `pw <- v` (42_pulse_width.md R88). -/
def State.setPw (s : State) (v : Arg) : State := { s with pw := v }

/-- What a step with `rst == 1` does to the block (70_reset_and_hazards.md R106): every register to its reset value.
`CHIP_COUNT`, the outside and the records of what went before are not the block's to reset. -/
def State.resetBlock (s : State) : State :=
  { s with
    cur := zeros s.width
    prev := zeros s.width
    pw := Config.pwDefault
    phase := .idle
    idx := 0
    oLoad := Config.loadReset
    oClk := Config.clkReset
    oCe := Config.ceReset
    hold := 0#16 }

/-- Elaboration with `CHIP_COUNT = n`, then reset: the source's `new(...)` (00_scope.md R13). A chip count that has no
block is refused with `ConfigError` (60_exceptions.md R93). -/
def launch (n : Nat) : Host.Outcome State Fault Refusal :=
  match Config.chipCountError n with
  | none => .next (State.resetWith n)
  | some e => .fault (.configError e)

end Sys2Proof.Machine
end

