-- ==== Sys2Proof/Machine/Poll.lean ====
section
/-! DEFINITION. `POLL` and the pulse-width sequencer: the acceptance step and one definition per phase
(40_poll.md R60 to R68). -/

namespace Sys2Proof.Machine

open Sys2Proof

/-- `POLL`, the acceptance step: latch the frame and start the sequencer; no pin event, no response (40_poll.md R60). -/
def execPoll (s : State) : Host.Outcome State Fault Refusal :=
  .next (s.latchFrame.goto .ceHi)

/-- Step `CE_HI` (40_poll.md R61). -/
def seqCeHi (s : State) : State := (s.out .ce true).goto .ldLo

/-- Step `LD_LO` (40_poll.md R62). -/
def seqLdLo (s : State) : State := (s.out .load false).wait.goto .ldHi

/-- Step `LD_HI` (40_poll.md R63). -/
def seqLdHi (s : State) : State := (s.out .load true).wait.goto .ceLo

/-- Step `CE_LO` (40_poll.md R64). -/
def seqCeLo (s : State) : State := (s.out .ce false).goto .sample

/-- Step `SAMPLE` (40_poll.md R65). -/
def seqSample (s : State) : State := s.takeSample.goto .ckHi

/-- Step `CK_HI` (40_poll.md R67). -/
def seqCkHi (s : State) : State := (s.out .clk true).wait.goto .ckLo

/-- Step `CK_LO`, its part after the hold: the next bit, or the end of the poll with its response (40_poll.md R68). -/
def seqBitDone (s : State) : State :=
  if s.idx = 0 then (s.respondOk 0#16 s.cur).goto .idle else s.countDown.goto .sample

/-- Step `CK_LO` (40_poll.md R68). The clock line is 1 when the phase is entered, so its level tells the part before the
hold, `Out(CLK, 0); Wait(pw)`, from the part "when that hold has run its time" (log entry 8). -/
def seqCkLo (s : State) : State :=
  if s.oClk then (s.out .clk false).wait else seqBitDone s

/-- The sequencer's step from each phase (10_state.md R18, 40_poll.md R73). In `IDLE` it takes none. -/
def seqPhase (s : State) : State :=
  match s.phase with
  | .idle => s
  | .ceHi => seqCeHi s
  | .ldLo => seqLdLo s
  | .ldHi => seqLdHi s
  | .ceLo => seqCeLo s
  | .sample => seqSample s
  | .ckHi => seqCkHi s
  | .ckLo => seqCkLo s

/-- One step of a busy block: while a hold runs only time passes; otherwise the sequencer takes its next step
(40_poll.md R66, 10_state.md R21). `tick` is the level of the `tick` port in this step. -/
def State.sequencerStep (s : State) (tick : Bool) : State :=
  if s.hold = 0#16 then seqPhase s else s.passTime tick

end Sys2Proof.Machine
end

