-- ==== Sys2Proof/Machine/PulseWidth.lean ====
section
/-! DEFINITION. The pulse-width commands (42_pulse_width.md R87, R88). -/

namespace Sys2Proof.Machine

open Sys2Proof

/-- `GET_PW` (42_pulse_width.md R87). -/
def execGetPw (s : State) : Host.Outcome State Fault Refusal :=
  .next (s.respondOk s.pw (zeros s.width))

/-- `SET_PW v`: any value, 0 included (42_pulse_width.md R88). -/
def execSetPw (v : Arg) (s : State) : Host.Outcome State Fault Refusal :=
  .next ((s.setPw v).respondOk 0#16 (zeros s.width))

end Sys2Proof.Machine
end

