-- ==== Sys2Proof/Machine/Queries.lean ====
section
/-! DEFINITION. The seven query commands (41_queries.md R76 to R83). -/

namespace Sys2Proof.Machine

open Sys2Proof

/-- What the five indexed queries share: the range check, then the answer, or the fault (41_queries.md R83). -/
def State.indexedQuery (s : State) (i : Nat) (answer : Bool) : State :=
  if s.inRange i then s.respondOk (bitData answer) (zeros s.width)
  else s.raise (.indexOutOfRange i)

/-- `STATE i` (41_queries.md R76). -/
def execState (i : Nat) (s : State) : Host.Outcome State Fault Refusal :=
  .next (s.indexedQuery i (readBit s.cur i))

/-- `LAST i` (41_queries.md R77). -/
def execLast (i : Nat) (s : State) : Host.Outcome State Fault Refusal :=
  .next (s.indexedQuery i (readBit s.prev i))

/-- `CHANGED i` (41_queries.md R78). -/
def execChanged (i : Nat) (s : State) : Host.Outcome State Fault Refusal :=
  .next (s.indexedQuery i (readBit s.cur i ^^ readBit s.prev i))

/-- `CHANGED_ANY` (41_queries.md R79). -/
def execChangedAny (s : State) : Host.Outcome State Fault Refusal :=
  .next (s.respondOk (bitData (s.cur != s.prev)) (zeros s.width))

/-- `PRESSED i` (41_queries.md R80). -/
def execPressed (i : Nat) (s : State) : Host.Outcome State Fault Refusal :=
  .next (s.indexedQuery i (!readBit s.prev i && readBit s.cur i))

/-- `RELEASED i` (41_queries.md R81). -/
def execReleased (i : Nat) (s : State) : Host.Outcome State Fault Refusal :=
  .next (s.indexedQuery i (readBit s.prev i && !readBit s.cur i))

/-- `RAW_STATE` (41_queries.md R82). -/
def execRawState (s : State) : Host.Outcome State Fault Refusal :=
  .next (s.respondOk 0#16 s.cur)

end Sys2Proof.Machine
end

