-- ==== Sys2Proof/Machine/Reserved.lean ====
section
/-! DEFINITION. The six reserved words: each raises `IllegalCommand` (30_encoding.md R55, 60_exceptions.md R95). -/

namespace Sys2Proof.Machine

open Sys2Proof

/-- `op = 0x0` (60_exceptions.md R95). -/
def execReserved0 (s : State) : Host.Outcome State Fault Refusal :=
  .next (s.raise (.illegalCommand 0x0#4))

/-- `op = 0xB` (60_exceptions.md R95). -/
def execReservedB (s : State) : Host.Outcome State Fault Refusal :=
  .next (s.raise (.illegalCommand 0xB#4))

/-- `op = 0xC` (60_exceptions.md R95). -/
def execReservedC (s : State) : Host.Outcome State Fault Refusal :=
  .next (s.raise (.illegalCommand 0xC#4))

/-- `op = 0xD` (60_exceptions.md R95). -/
def execReservedD (s : State) : Host.Outcome State Fault Refusal :=
  .next (s.raise (.illegalCommand 0xD#4))

/-- `op = 0xE` (60_exceptions.md R95). -/
def execReservedE (s : State) : Host.Outcome State Fault Refusal :=
  .next (s.raise (.illegalCommand 0xE#4))

/-- `op = 0xF` (60_exceptions.md R95). -/
def execReservedF (s : State) : Host.Outcome State Fault Refusal :=
  .next (s.raise (.illegalCommand 0xF#4))

end Sys2Proof.Machine
end

