-- ==== Sys2Proof/Machine/Dispatch.lean ====
section
/-! DEFINITION. What an accepted command does (30_encoding.md R53): one arm per constructor of Instr. -/

namespace Sys2Proof.Machine

open Sys2Proof

/-- The effect of the command `i`, accepted in the state `s`. That a command is accepted only in `IDLE` is `step`'s
to check (30_encoding.md R47; log entry 14). -/
def exec (i : Instr) (s : State) : Host.Outcome State Fault Refusal :=
  match i with
  | .poll => Sys2Proof.Machine.execPoll s
  | .state n => Sys2Proof.Machine.execState n s
  | .last n => Sys2Proof.Machine.execLast n s
  | .changed n => Sys2Proof.Machine.execChanged n s
  | .changedAny => Sys2Proof.Machine.execChangedAny s
  | .pressed n => Sys2Proof.Machine.execPressed n s
  | .released n => Sys2Proof.Machine.execReleased n s
  | .rawState => Sys2Proof.Machine.execRawState s
  | .getPw => Sys2Proof.Machine.execGetPw s
  | .setPw v => Sys2Proof.Machine.execSetPw v s
  | .reserved0 => Sys2Proof.Machine.execReserved0 s
  | .reservedB => Sys2Proof.Machine.execReservedB s
  | .reservedC => Sys2Proof.Machine.execReservedC s
  | .reservedD => Sys2Proof.Machine.execReservedD s
  | .reservedE => Sys2Proof.Machine.execReservedE s
  | .reservedF => Sys2Proof.Machine.execReservedF s

end Sys2Proof.Machine
end

