-- ==== Sys2Proof/Machine/Step.lean ====
section
/-! DEFINITION. One step of the machine (60_exceptions.md R97, 30_encoding.md R47): reset wins over everything; an idle
block accepts the word on the command port; a busy block goes on with its poll. -/

namespace Sys2Proof.Machine

open Sys2Proof

/-- One step. -/
def step (s : State) : Host.Outcome State Fault Refusal :=
  if s.rst.level then .next s.clock.resetBlock
  else if s.cmdReady then
    match s.presented with
    | some w => exec (decode w) s.accept
    | none => .next s.clock
  else .next (s.clock.sequencerStep s.tick.level)

/-- `s` with the word `w` presented by the host in the coming step, ahead of whatever else it presents, `rst` low in
that step and the block idle, so that this step accepts the word (log entry 12). The port has 20 lines; the bits of `w`
above `nbits` are zero. -/
def State.withFetchWord (s : State) (nbits w : Nat) : State :=
  { s with
    rst := s.rst.lowered
    phase := .idle
    cmds := some (BitVec.ofNat 20 (w % 2 ^ nbits)) :: s.cmds }

end Sys2Proof.Machine
end

