-- ==== Sys2Proof/Safety.lean ====
section
/-! DEFINITION. The terms that claims about the machine are written in: the state invariant, what a step leaves alone,
the pin trace and the decode function of a poll (40_poll.md R69, R70), the quiet, live and dead input lines, and the
external chain as a premise on the samples (93_implementation_defined.md G1). -/

namespace Sys2Proof.Machine

open Sys2Proof

/-- The next state of an outcome, if it is one. -/
def nextOf : Host.Outcome State Fault Refusal → Option State
  | .next s => some s
  | .fault _ => none
  | .refused _ => none

/-- The command `i`, run in `s`, completes and its response is `r`. -/
def Answers (i : Instr) (s : State) (r : Response) : Prop :=
  ∃ t, exec i s = .next t ∧ t.rsp = some r

/-- The data word of a boolean result (30_encoding.md R50). -/
def boolData (b : Bool) : Arg := if b then 0x0001#16 else 0x0000#16

/-! ### What stays as it was -/

/-- The two vectors. -/
abbrev SameVectors (s t : State) : Prop := t.cur = s.cur ∧ t.prev = s.prev

/-- The sequencer's registers. -/
abbrev SameSequencer (s t : State) : Prop := t.phase = s.phase ∧ t.idx = s.idx ∧ t.hold = s.hold

/-- The three output registers. -/
abbrev SamePins (s t : State) : Prop := t.oLoad = s.oLoad ∧ t.oClk = s.oClk ∧ t.oCe = s.oCe

/-- Every register of the block. -/
abbrev SameBlock (s t : State) : Prop :=
  SameVectors s t ∧ t.pw = s.pw ∧ SameSequencer s t ∧ SamePins s t

/-- The chip count and all the outside has still to offer. -/
abbrev SameOutside (s t : State) : Prop :=
  t.chipCount = s.chipCount ∧ t.rst = s.rst ∧ t.tick = s.tick ∧ t.cmds = s.cmds ∧ t.data = s.data ∧ t.draws = s.draws

/-- The response `r` is given and recorded, once. -/
abbrev Responds (s t : State) (r : Response) : Prop :=
  t.rsp = some r ∧ t.responses = s.responses ++ [r]

/-- No response is given. -/
abbrev NoResponse (s t : State) : Prop := t.rsp = none ∧ t.responses = s.responses

/-- The frame of a query and of a fault: the response and nothing else (41_queries.md R83 (b), 60_exceptions.md R91). -/
abbrev OnlyResponds (s t : State) (r : Response) : Prop :=
  SameBlock s t ∧ SameOutside s t ∧ t.trace = s.trace ∧ Responds s t r

/-- The frame of one step that accepts no command: the chip count stays, the host's word waits, each input line is one
step further. -/
abbrev StepFrame (s t : State) : Prop :=
  t.chipCount = s.chipCount ∧ t.cmds = waiting s.cmds ∧ t.rst = s.rst.pop ∧ t.tick = s.tick.pop

/-- No sample is taken. -/
abbrev NoSample (s t : State) : Prop := t.data = s.data ∧ t.draws = s.draws

/-! ### The invariant -/

/-- A hold can remain only in the phases that follow an `Out` on the load or the clock line (40_poll.md R62, R63, R67,
R68). -/
abbrev State.mayHold (s : State) : Prop := s.phase = .ldHi ∨ s.phase = .ceLo ∨ s.phase = .ckLo

/-- The lowest positions that the poll in flight has not sampled yet: those below this number (40_poll.md R65). -/
def State.unsampled (s : State) : Nat :=
  match s.phase with
  | .idle => 0
  | .ceHi | .ldLo | .ldHi | .ceLo | .sample => s.idx + 1
  | .ckHi | .ckLo => s.idx

/-- The block exists, and every vector has `WIDTH` elements (00_scope.md R5, 10_state.md R14, 30_encoding.md R50). -/
abbrev State.Shape (s : State) : Prop :=
  1 ≤ s.chipCount ∧ s.chipCount ≤ Config.maxChipCount ∧
  s.cur.length = s.width ∧ s.prev.length = s.width ∧ s.idx < s.width ∧ ∀ r ∈ s.responses, r.vec.length = s.width

/-- Where the sequencer stands (10_state.md R18, R20, R21). -/
abbrev State.SequencerOk (s : State) : Prop :=
  (s.phase = .idle → s.idx = 0) ∧
  (s.phase = .ceHi ∨ s.phase = .ldLo ∨ s.phase = .ldHi ∨ s.phase = .ceLo → s.idx = s.width - 1) ∧
  (s.hold ≠ 0#16 → s.mayHold) ∧ s.hold.toNat ≤ s.pw.toNat ∧
  ∀ i < s.unsampled, readBit s.cur i = false

/-- The pin levels that go with each phase (40_poll.md R61 to R68, 70_reset_and_hazards.md R119). -/
abbrev State.PinsOk (s : State) : Prop :=
  (s.phase ≠ .ldHi → s.oLoad = true) ∧ (s.phase = .ldHi → s.oLoad = false) ∧
  (s.phase ≠ .ckLo → s.oClk = false) ∧
  (s.phase = .ldLo ∨ s.phase = .ldHi ∨ s.phase = .ceLo → s.oCe = true) ∧
  (s.phase = .sample ∨ s.phase = .ckHi ∨ s.phase = .ckLo → s.oCe = false)

/-- What stands on the response ports is the newest response on record, and a busy block gives none (30_encoding.md R50,
R52). -/
abbrev State.ResponseOk (s : State) : Prop :=
  (s.rsp = none ∨ s.rsp = s.responses.getLast?) ∧ (s.phase ≠ .idle → s.rsp = none)

/-- The invariant that reset establishes and every step keeps. -/
abbrev State.Inv (s : State) : Prop := s.Shape ∧ s.SequencerOk ∧ s.PinsOk ∧ s.ResponseOk

/-! ### Input lines -/

/-- The line is low in every coming step. -/
abbrev Line.AlwaysLow (l : Line) : Prop := (∀ b ∈ l.soon, b = false) ∧ l.rest = false

/-- The line stays high from some step on: the time reference is live (70_reset_and_hazards.md R117). -/
abbrev Line.Live (l : Line) : Prop := l.rest = true

/-- The levels of a line in the coming `n` steps. -/
def Line.levels (l : Line) : Nat → List Bool
  | 0 => []
  | n + 1 => l.level :: l.pop.levels n

/-- The time units that pass in the coming `n` steps: the pulses of `tick` (00_scope.md R9). -/
def State.timeUnits (s : State) (n : Nat) : Nat := (s.tick.levels n).count true

/-! ### A poll as a whole -/

/-- The next `n` answers of the environment, in arrival order (00_scope.md R12). -/
def answersFrom (data : List Bool) (draws : Nat) : Nat → Bits
  | 0 => []
  | n + 1 => data.headD (Config.freeLevel draws) :: answersFrom data.tail (draws + 1) n

/-- The samples that the poll accepted in this state will take. -/
def State.samples (s : State) : Bits := answersFrom s.data s.draws s.width

/-- `decode(S)`: `v[i] = s_(W-1-i)` (40_poll.md R70). -/
def decodeSamples (S : Bits) : Bits := S.reverse

/-- The pin events of one bit (40_poll.md R69). -/
def bitTrace (P : Arg) (b : Bool) : List PinEvent :=
  [.read b, .out .clk true, .wait P, .out .clk false, .wait P]

/-- The pin trace of one complete poll with pulse width `P` and samples `S` (40_poll.md R69). -/
def pollTrace (P : Arg) (S : Bits) : List PinEvent :=
  [.out .ce true, .out .load false, .wait P, .out .load true, .wait P, .out .ce false] ++ S.flatMap (bitTrace P)

/-- An event with the number inside a `Wait` left out. -/
def PinEvent.withoutWidth : PinEvent → PinEvent
  | .out p v => .out p v
  | .wait _ => .wait 0#16
  | .read b => .read b

/-- The event is an `Out`. -/
def PinEvent.isOut : PinEvent → Bool
  | .out _ _ => true
  | .wait _ => false
  | .read _ => false

/-- The level of an `In(DATA)`. -/
def PinEvent.sample? : PinEvent → Option Bool
  | .out _ _ => none
  | .wait _ => none
  | .read b => some b

/-- The number of a `Wait`. -/
def PinEvent.wait? : PinEvent → Option Arg
  | .out _ _ => none
  | .wait n => some n
  | .read _ => none

/-- `n` steps from `s` end in `t`. -/
def Reaches (s : State) : Nat → State → Prop
  | 0, t => t = s
  | n + 1, t => ∃ u, step s = .next u ∧ Reaches u n t

/-- `n` steps from `s` end in `t`, and in none of them a poll completes: none takes a busy block back to `IDLE` but by
reset (40_poll.md R68, 70_reset_and_hazards.md R108). -/
def ReachesBeforePollCompletes (s : State) : Nat → State → Prop
  | 0, t => t = s
  | n + 1, t => ∃ u, step s = .next u ∧ ¬(s.rst.level = false ∧ s.phase ≠ .idle ∧ u.phase = .idle) ∧
      ReachesBeforePollCompletes u n t

/-- The host presents a `POLL` to an idle block, `rst` stays low and the time reference is live. -/
abbrev State.PollGoesAhead (s : State) : Prop :=
  s.phase = .idle ∧ (∃ w, s.presented = some w ∧ decode w = .poll) ∧ s.rst.AlwaysLow ∧ s.tick.Live

/-- A run is over: the block is idle and the host has nothing left to present (70_reset_and_hazards.md R124). -/
def State.runOver (s : State) : Prop := s.phase = .idle ∧ ∀ c ∈ s.cmds, c = none

/-! ### The external chain, as a premise on the samples. PRESUMED (log entry 17): from 93_implementation_defined.md G1,
which the spec marks as general knowledge. The machine does not use it. -/

/-- The chain: its shift register, the levels on its parallel inputs, the level on its far serial input, and the levels
of the three lines it sees. -/
structure Chain where
  sr : Bits
  ext : Bits
  serIn : Bool
  load : Bool
  clk : Bool
  ce : Bool
deriving DecidableEq, Repr

/-- One shift: `sr[j] <- sr[j-1]`, `sr[0] <- ser_in` (G1). -/
def Chain.shift (c : Chain) : Chain := { c with sr := c.serIn :: c.sr.dropLast }

/-- The chain after a pin event (G1): a low load line copies the inputs; with the load line high a rising edge of
`CLK or CE` shifts. -/
def Chain.after (c : Chain) : PinEvent → Chain
  | .out .load v => { c with load := v, sr := if v then c.sr else c.ext }
  | .out .clk v =>
    let d := if c.load && v && !c.clk && !c.ce then c.shift else c
    { d with clk := v }
  | .out .ce v =>
    let d := if c.load && v && !c.ce && !c.clk then c.shift else c
    { d with ce := v }
  | .wait _ => c
  | .read _ => c

/-- Every sample in the trace is the level the chain puts on the data line at that point, `sr[WIDTH-1]` (G1). -/
def Chain.Gives : Chain → List PinEvent → Prop
  | _, [] => True
  | c, .read b :: es => c.sr.getLast? = some b ∧ c.Gives es
  | c, .out p v :: es => (c.after (.out p v)).Gives es
  | c, .wait n :: es => (c.after (.wait n)).Gives es

end Sys2Proof.Machine
end

