-- ==== Sys2Proof/Certificates/Slice0/Obligations.lean ====
section
/-! DEFINITION. The statements for the provers, each with the rule of spec/ that it formalises. -/

open Sys2Proof Sys2Proof.Machine

/-! ## Encoding -/

/-- Tier 1. Words written out from the opcode map decode to the commands they stand for (30_encoding.md R53). -/
def Obligations.WordsOfTheMapDecode : Prop :=
  decode 0x1FFFF#20 = .poll ∧ decode 0x20007#20 = .state 7 ∧ decode 0x2FFFF#20 = .state 65535 ∧
  decode 0x3000F#20 = .last 15 ∧ decode 0x40100#20 = .changed 256 ∧ decode 0x5ABCD#20 = .changedAny ∧
  decode 0x60004#20 = .pressed 4 ∧ decode 0x78000#20 = .released 32768 ∧ decode 0x80000#20 = .rawState ∧
  decode 0x90000#20 = .getPw ∧ decode 0xA0014#20 = .setPw 20#16 ∧ decode 0x00000#20 = .reserved0 ∧
  decode 0xB0000#20 = .reservedB ∧ decode 0xF1234#20 = .reservedF

/-- Tier 2. The opcode map, R53: a word `w` selects the row when `(w & mask) == match`; the operand of a selected index
or value row is all sixteen bits of `cmd[15:0]`. Every word is in one of the sixteen rows. -/
def Obligations.MatchAndMaskSelectTheCommand : Prop :=
  ∀ w : Word,
    (w &&& 0xF0000#20 = 0x10000#20 → decode w = .poll) ∧
    (w &&& 0xF0000#20 = 0x20000#20 → decode w = .state (w.toNat % 65536)) ∧
    (w &&& 0xF0000#20 = 0x30000#20 → decode w = .last (w.toNat % 65536)) ∧
    (w &&& 0xF0000#20 = 0x40000#20 → decode w = .changed (w.toNat % 65536)) ∧
    (w &&& 0xF0000#20 = 0x50000#20 → decode w = .changedAny) ∧
    (w &&& 0xF0000#20 = 0x60000#20 → decode w = .pressed (w.toNat % 65536)) ∧
    (w &&& 0xF0000#20 = 0x70000#20 → decode w = .released (w.toNat % 65536)) ∧
    (w &&& 0xF0000#20 = 0x80000#20 → decode w = .rawState) ∧
    (w &&& 0xF0000#20 = 0x90000#20 → decode w = .getPw) ∧
    (w &&& 0xF0000#20 = 0xA0000#20 → decode w = .setPw (BitVec.ofNat 16 w.toNat)) ∧
    (w &&& 0xF0000#20 = 0x00000#20 → decode w = .reserved0) ∧
    (w &&& 0xF0000#20 = 0xB0000#20 → decode w = .reservedB) ∧
    (w &&& 0xF0000#20 = 0xC0000#20 → decode w = .reservedC) ∧
    (w &&& 0xF0000#20 = 0xD0000#20 → decode w = .reservedD) ∧
    (w &&& 0xF0000#20 = 0xE0000#20 → decode w = .reservedE) ∧
    (w &&& 0xF0000#20 = 0xF0000#20 → decode w = .reservedF)

/-- Tier 3. Every well-formed command is read back from its word, operand and all, by the decoder and by the reading of
a table word. -/
def Obligations.DecodingUndoesEncoding : Prop :=
  ∀ i : Instr, i.wf = true →
    decode (encode i) = i ∧ ∀ nbits, 20 ≤ nbits → decodeTableWord nbits (encode i).toNat = some i

/-- Tier 2. The other direction: every word decodes to a well-formed command, and encoding that command gives the word
back, with zeros in place of an operand that the command ignores. For `POLL`, `CHANGED_ANY`, `RAW_STATE` and `GET_PW` the
zeros are R54's; for the six reserved words they are the model's choice (log entry 10), which no rule of the spec states. -/
def Obligations.EncodingUndoesDecoding : Prop :=
  ∀ w : Word, (decode w).wf = true ∧
    encode (decode w) =
      match decode w with
      | .state _ | .last _ | .changed _ | .pressed _ | .released _ | .setPw _ => w
      | _ => w &&& 0xF0000#20

/-- Tier 1. Placing a word for the next step: the word is decoded as the table's word, and that step is exactly the
command's effect, from every state. The placement is the model's (log entry 12). -/
def Obligations.PlacedWordRunsNext : Prop :=
  ∀ (s : State) (nbits w : Nat), w < 2 ^ nbits → w < 2 ^ 20 →
    ∃ i, decodeTableWord nbits w = some i ∧
      step (s.withFetchWord nbits w) = exec i (s.withFetchWord nbits w).accept

/-! ## The step -/

/-- Tier 1. An idle block accepts the presented word: the step is the decoded command's effect, in the state in which
the host has removed the word, the input lines are one step on and no response is given yet (R47). -/
def Obligations.IdleStepRunsThePresentedCommand : Prop :=
  ∀ (s : State) (w : Word) (cs : List (Option Word)),
    s.rst.level = false → s.phase = .idle → s.cmds = some w :: cs →
    step s = exec (decode w)
      { s with cmds := cs, rst := s.rst.pop, tick := s.tick.pop, rsp := none }

/-- Tier 2. The command port (R47): `cmd_ready` is `phase == IDLE`; a word presented to a ready block is accepted, read
once and removed; a word presented to a busy block waits, whatever it is, and what the block does meanwhile does not
depend on it; with nothing presented an idle block does nothing. -/
def Obligations.CommandsAreAcceptedOnlyInIdle : Prop :=
  ∀ s : State, (s.cmdReady = true ↔ s.phase = .idle) ∧ (s.rst.level = false →
    (∀ w cs, s.cmdReady = true → s.cmds = some w :: cs →
      ∃ t, step s = .next t ∧ exec (decode w) s.accept = .next t ∧ t.cmds = cs) ∧
    (∀ w w' cs, s.cmdReady = false → s.cmds = some w :: cs →
      ∃ t, step s = .next t ∧ t.cmds = some w :: cs ∧
        step { s with cmds := some w' :: cs } = .next { t with cmds := some w' :: cs }) ∧
    (s.cmdReady = true → s.presented = none →
      ∃ t, step s = .next t ∧ SameBlock s t ∧ StepFrame s t ∧ NoSample s t ∧ t.trace = s.trace ∧ NoResponse s t))

/-- Tier 2. Every step of every state answers a next state: no command and no step of the sequencer stops the machine
(60_exceptions.md R99: faults are over in the step that raised them, and "the sequencer's steps cannot fault"). -/
def Obligations.EveryStepGoesOn : Prop :=
  ∀ s : State, ∃ t, step s = .next t

/-! ## Reset and building a block -/

/-- Tier 1. The state after reset (R30), of the block that `State.reset` names and of a block with any chip count. -/
def Obligations.ResetStateIsTheSpecs : Prop :=
  ∀ s : State, (s = State.reset ∨ ∃ n, s = State.resetWith n) →
    s.cur = List.replicate s.width false ∧ s.prev = List.replicate s.width false ∧ s.pw = 5#16 ∧ s.phase = .idle ∧
    s.idx = 0 ∧ s.hold = 0#16 ∧ s.oLoad = true ∧ s.oClk = false ∧ s.oCe = true ∧ s.cmdReady = true

/-- Tier 1. Building a block: refused for 0 and for more than 8191 chips, otherwise the reset state (R93). -/
def Obligations.OnlyLegalChipCountsAreBuilt : Prop :=
  launch 0 = .fault (.configError .noChips) ∧
  (∀ n, 8191 < n → launch n = .fault (.configError .tooManyChips)) ∧
  ∀ n, 1 ≤ n → n ≤ 8191 → launch n = .next (State.resetWith n)

/-- Tier 1. A step with `rst` high, whatever the phase and whatever is presented: every register takes its reset value,
no command is accepted, no response is given, no pin event is recorded (R106), so a poll in flight is lost without a
response (R108). -/
def Obligations.ResetWinsInEveryState : Prop :=
  ∀ s : State, s.rst.level = true →
    ∃ t, step s = .next t ∧
      t.cur = List.replicate (s.chipCount * 8) false ∧ t.prev = List.replicate (s.chipCount * 8) false ∧
      t.pw = 5#16 ∧ t.phase = .idle ∧ t.idx = 0 ∧ t.hold = 0#16 ∧ t.oLoad = true ∧ t.oClk = false ∧ t.oCe = true ∧
      StepFrame s t ∧ NoSample s t ∧ t.trace = s.trace ∧ NoResponse s t

/-- Tier 2. After reset and before any `POLL` completes (R86): from a state that a step with `rst` high leaves, and from
every idle state whose two vectors are as reset leaves them, whatever the host then presents and however many steps run,
polls cut short by reset among them, as long as no poll completes: whenever the block is idle again, every valid index
answers 0 to all five indexed queries, `CHANGED_ANY` answers 0, `RAW_STATE` answers the zero vector, and an index from
`WIDTH` on faults all the same. -/
def Obligations.BeforeTheFirstPollEverythingIsZero : Prop :=
  ∀ (s t : State) (n : Nat),
    ((∃ r, r.rst.level = true ∧ step r = .next s) ∨
      (s.phase = .idle ∧ s.cur = List.replicate s.width false ∧ s.prev = List.replicate s.width false)) →
    ReachesBeforePollCompletes s n t → t.phase = .idle →
    let zero := List.replicate t.width false
    (∀ i, i < t.width → ∀ q ∈ [Instr.state i, .last i, .changed i, .pressed i, .released i],
      Answers q t ⟨.ok, 0x0000#16, zero⟩) ∧
    (∀ i, t.width ≤ i → ∀ q ∈ [Instr.state i, .last i, .changed i, .pressed i, .released i],
      Answers q t ⟨.indexRange, 0x0000#16, zero⟩) ∧
    Answers .changedAny t ⟨.ok, 0x0000#16, zero⟩ ∧ Answers .rawState t ⟨.ok, 0x0000#16, zero⟩

/-! ## Query commands -/

/-- Tier 1. `STATE i` (R76): its words, its answer for a valid index, its fault for any other. -/
def Obligations.StateAnswersTheCurrentBit : Prop :=
  (∀ arg : Arg, decode (0x2#4 ++ arg) = .state arg.toNat) ∧
  ∀ (s : State) (i : Nat),
    (i < s.width → ∃ t, exec (.state i) s = .next t ∧
      OnlyResponds s t ⟨.ok, boolData (s.cur.getD i false), List.replicate s.width false⟩) ∧
    (s.width ≤ i → ∃ t, exec (.state i) s = .next t ∧
      OnlyResponds s t ⟨.indexRange, 0x0000#16, List.replicate s.width false⟩)

/-- Tier 1. `LAST i` (R77): its words, its answer for a valid index, its fault for any other. -/
def Obligations.LastAnswersThePreviousBit : Prop :=
  (∀ arg : Arg, decode (0x3#4 ++ arg) = .last arg.toNat) ∧
  ∀ (s : State) (i : Nat),
    (i < s.width → ∃ t, exec (.last i) s = .next t ∧
      OnlyResponds s t ⟨.ok, boolData (s.prev.getD i false), List.replicate s.width false⟩) ∧
    (s.width ≤ i → ∃ t, exec (.last i) s = .next t ∧
      OnlyResponds s t ⟨.indexRange, 0x0000#16, List.replicate s.width false⟩)

/-- Tier 1. `CHANGED i` (R78): its words, its answer for a valid index, its fault for any other. -/
def Obligations.ChangedAnswersWhetherTheBitsDiffer : Prop :=
  (∀ arg : Arg, decode (0x4#4 ++ arg) = .changed arg.toNat) ∧
  ∀ (s : State) (i : Nat),
    (i < s.width → ∃ t, exec (.changed i) s = .next t ∧
      OnlyResponds s t ⟨.ok, boolData (decide (s.cur.getD i false ≠ s.prev.getD i false)), List.replicate s.width false⟩) ∧
    (s.width ≤ i → ∃ t, exec (.changed i) s = .next t ∧
      OnlyResponds s t ⟨.indexRange, 0x0000#16, List.replicate s.width false⟩)

/-- Tier 2. `CHANGED_ANY` (R79): its words, the operand ignored; 1 when there is an index in `[0, W)` at which the two
vectors differ, else 0. -/
def Obligations.ChangedAnyAnswersWhetherSomeBitDiffers : Prop :=
  (∀ arg : Arg, decode (0x5#4 ++ arg) = .changedAny) ∧
  ∀ s : State, s.Inv →
    ∃ t d, exec .changedAny s = .next t ∧ OnlyResponds s t ⟨.ok, d, List.replicate s.width false⟩ ∧
      ((∃ i, i < s.width ∧ s.cur.getD i false ≠ s.prev.getD i false) → d = 0x0001#16) ∧
      ((∀ i, i < s.width → s.cur.getD i false = s.prev.getD i false) → d = 0x0000#16)

/-- Tier 1. `PRESSED i` (R80): its words, its answer for a valid index, its fault for any other. -/
def Obligations.PressedAnswersARisingEdge : Prop :=
  (∀ arg : Arg, decode (0x6#4 ++ arg) = .pressed arg.toNat) ∧
  ∀ (s : State) (i : Nat),
    (i < s.width → ∃ t, exec (.pressed i) s = .next t ∧
      OnlyResponds s t ⟨.ok, boolData (decide (s.prev.getD i false = false ∧ s.cur.getD i false = true)), List.replicate s.width false⟩) ∧
    (s.width ≤ i → ∃ t, exec (.pressed i) s = .next t ∧
      OnlyResponds s t ⟨.indexRange, 0x0000#16, List.replicate s.width false⟩)

/-- Tier 1. `RELEASED i` (R81): its words, its answer for a valid index, its fault for any other. -/
def Obligations.ReleasedAnswersAFallingEdge : Prop :=
  (∀ arg : Arg, decode (0x7#4 ++ arg) = .released arg.toNat) ∧
  ∀ (s : State) (i : Nat),
    (i < s.width → ∃ t, exec (.released i) s = .next t ∧
      OnlyResponds s t ⟨.ok, boolData (decide (s.prev.getD i false = true ∧ s.cur.getD i false = false)), List.replicate s.width false⟩) ∧
    (s.width ≤ i → ∃ t, exec (.released i) s = .next t ∧
      OnlyResponds s t ⟨.indexRange, 0x0000#16, List.replicate s.width false⟩)

/-- Tier 1. `RAW_STATE` (R82): its words, the operand ignored; the whole current vector in the vector field. -/
def Obligations.RawStateAnswersTheWholeVector : Prop :=
  (∀ arg : Arg, decode (0x8#4 ++ arg) = .rawState) ∧
  ∀ s : State, ∃ t, exec .rawState s = .next t ∧ OnlyResponds s t ⟨.ok, 0x0000#16, s.cur⟩

/-- Tier 1. An index `i >= WIDTH`, all of it compared, in any of the five indexed queries: status `INDEX_RANGE`, zero
data, zero vector, and nothing changed; never wrapped (R94). -/
def Obligations.IndexOutOfRangeIsTrapped : Prop :=
  ∀ (s : State) (i : Nat), s.width ≤ i →
    ∀ q ∈ [Instr.state i, .last i, .changed i, .pressed i, .released i],
      ∃ t, exec q s = .next t ∧ OnlyResponds s t ⟨.indexRange, 0x0000#16, List.replicate s.width false⟩

/-- Tier 2. The laws of the queries (R84): the truth table of the five indexed queries for every valid index and both
bits, so that (a) `PRESSED` and `RELEASED` are never both 1 and (b), (c) `CHANGED` is 1 exactly when one of them is;
(d) `CHANGED_ANY` is the OR over all valid `i` of `CHANGED i`; (e) `STATE i` is bit `i` of the vector that `RAW_STATE`
answers. -/
def Obligations.QueryLaws : Prop :=
  ∀ s : State, s.Inv → let zero := List.replicate s.width false
    (∀ (i : Nat) (L S : Bool), s.prev[i]? = some L → s.cur[i]? = some S →
      ∃ c p r : Bool,
        (L, S, c, p, r) ∈ [(false, false, false, false, false), (false, true, true, true, false),
          (true, false, true, false, true), (true, true, false, false, false)] ∧
        Answers (.state i) s ⟨.ok, boolData S, zero⟩ ∧ Answers (.last i) s ⟨.ok, boolData L, zero⟩ ∧
        Answers (.changed i) s ⟨.ok, boolData c, zero⟩ ∧ Answers (.pressed i) s ⟨.ok, boolData p, zero⟩ ∧
        Answers (.released i) s ⟨.ok, boolData r, zero⟩) ∧
    (∀ r, Answers .changedAny s r →
      (r.data = 0x0001#16 ↔ ∃ i r', i < s.width ∧ Answers (.changed i) s r' ∧ r'.data = 0x0001#16)) ∧
    ∀ r i r', i < s.width → Answers .rawState s r → Answers (.state i) s r' →
      r'.data = boolData (r.vec.getD i false)

/-- Tier 2. Purity (R85): as long as no `POLL` is presented and no reset comes, however many commands run, `SET_PW` and
faulting queries among them, each of the seven queries answers what it would have answered at the start. -/
def Obligations.BetweenPollsQueriesAnswerTheSame : Prop :=
  ∀ (s t : State) (n : Nat), s.phase = .idle → s.rst.AlwaysLow →
    (∀ w, some w ∈ s.cmds → decode w ≠ .poll) → Reaches s n t →
    t.phase = .idle ∧ ∀ (i : Nat) (r : Response),
      ∀ q ∈ [Instr.state i, .last i, .changed i, .changedAny, .pressed i, .released i, .rawState],
        (Answers q s r ↔ Answers q t r)

/-! ## Pulse width and reserved words -/

/-- Tier 1. `GET_PW` (R87): its words, the operand ignored; the pulse width in the data field. -/
def Obligations.GetPwAnswersThePulseWidth : Prop :=
  (∀ arg : Arg, decode (0x9#4 ++ arg) = .getPw) ∧
  ∀ s : State, ∃ t, exec .getPw s = .next t ∧ OnlyResponds s t ⟨.ok, s.pw, List.replicate s.width false⟩

/-- Tier 1. `SET_PW v` (R88): its words; any value is stored and nothing else changes. -/
def Obligations.SetPwStoresAnyValue : Prop :=
  (∀ arg : Arg, decode (0xA#4 ++ arg) = .setPw arg) ∧
  ∀ (s : State) (v : Arg),
    ∃ t, exec (.setPw v) s = .next t ∧ t.pw = v ∧
      SameVectors s t ∧ SameSequencer s t ∧ SamePins s t ∧ SameOutside s t ∧ t.trace = s.trace ∧
      Responds s t ⟨.ok, 0x0000#16, List.replicate s.width false⟩

/-- Tier 2. `pw` is written by `SET_PW` and by reset and by nothing else, so it cannot change during a poll
(10_state.md R17, 42_pulse_width.md R89). -/
def Obligations.OnlySetPwOrResetChangesThePulseWidth : Prop :=
  ∀ s t : State, step s = .next t → t.pw ≠ s.pw →
    (s.rst.level = true ∧ t.pw = 5#16) ∨
    (s.rst.level = false ∧ s.phase = .idle ∧ ∃ w v, s.presented = some w ∧ decode w = .setPw v ∧ t.pw = v)

/-- Tier 1. The reserved words (R55, R95): a word whose `op` is `0x0` or `0xB` to `0xF`, whatever `arg` holds, decodes to
a reserved command; each of the six answers with status `ILLEGAL_CMD`, zero data, zero vector, and changes nothing. -/
def Obligations.ReservedWordsAreIllegalCommands : Prop :=
  (∀ arg : Arg, decode (0x0#4 ++ arg) = .reserved0 ∧ decode (0xB#4 ++ arg) = .reservedB ∧
    decode (0xC#4 ++ arg) = .reservedC ∧ decode (0xD#4 ++ arg) = .reservedD ∧ decode (0xE#4 ++ arg) = .reservedE ∧
    decode (0xF#4 ++ arg) = .reservedF) ∧
  ∀ (s : State), ∀ i ∈ [Instr.reserved0, .reservedB, .reservedC, .reservedD, .reservedE, .reservedF],
    ∃ t, exec i s = .next t ∧ OnlyResponds s t ⟨.illegalCmd, 0x0000#16, List.replicate s.width false⟩

/-! ## POLL and the sequencer -/

/-- Tier 1. `POLL`, the acceptance step (R60): `prev <- cur; cur <- 0_W; idx <- W-1; phase <- CE_HI`, no pin event, no
response, the block no longer ready. -/
def Obligations.PollLatchesTheFrame : Prop :=
  ∀ s : State, ∃ t, exec .poll s = .next t ∧
    t.prev = s.cur ∧ t.cur = List.replicate s.width false ∧ t.idx = s.width - 1 ∧ t.phase = .ceHi ∧
    t.cmdReady = false ∧ t.pw = s.pw ∧ t.hold = s.hold ∧ SamePins s t ∧ SameOutside s t ∧
    t.trace = s.trace ∧ t.rsp = s.rsp ∧ t.responses = s.responses

/-- Tier 1. Steps `CE_HI` and `CE_LO` (R61, R64): one level on the clock-enable line, no hold. -/
def Obligations.ClockEnableSteps : Prop :=
  ∀ s : State, s.rst.level = false → s.hold = 0#16 →
    (s.phase = .ceHi → ∃ t, step s = .next t ∧ t.oCe = true ∧ t.trace = s.trace ++ [.out .ce true] ∧ t.phase = .ldLo ∧
      t.hold = 0#16 ∧ t.idx = s.idx ∧ t.oLoad = s.oLoad ∧ t.oClk = s.oClk ∧ SameVectors s t ∧ t.pw = s.pw ∧
      StepFrame s t ∧ NoSample s t ∧ NoResponse s t) ∧
    (s.phase = .ceLo → ∃ t, step s = .next t ∧ t.oCe = false ∧ t.trace = s.trace ++ [.out .ce false] ∧
      t.phase = .sample ∧ t.hold = 0#16 ∧ t.idx = s.idx ∧ t.oLoad = s.oLoad ∧ t.oClk = s.oClk ∧ SameVectors s t ∧
      t.pw = s.pw ∧ StepFrame s t ∧ NoSample s t ∧ NoResponse s t)

/-- Tier 1. Steps `LD_LO` and `LD_HI` (R62, R63): one level on the load line, then a hold of `pw`. -/
def Obligations.LoadPulseSteps : Prop :=
  ∀ s : State, s.rst.level = false → s.hold = 0#16 →
    (s.phase = .ldLo → ∃ t, step s = .next t ∧ t.oLoad = false ∧
      t.trace = s.trace ++ [.out .load false, .wait s.pw] ∧ t.phase = .ldHi ∧ t.hold = s.pw ∧ t.idx = s.idx ∧
      t.oClk = s.oClk ∧ t.oCe = s.oCe ∧ SameVectors s t ∧ t.pw = s.pw ∧ StepFrame s t ∧ NoSample s t ∧
      NoResponse s t) ∧
    (s.phase = .ldHi → ∃ t, step s = .next t ∧ t.oLoad = true ∧
      t.trace = s.trace ++ [.out .load true, .wait s.pw] ∧ t.phase = .ceLo ∧ t.hold = s.pw ∧ t.idx = s.idx ∧
      t.oClk = s.oClk ∧ t.oCe = s.oCe ∧ SameVectors s t ∧ t.pw = s.pw ∧ StepFrame s t ∧ NoSample s t ∧ NoResponse s t)

/-- Tier 1. Step `SAMPLE` (R65): one read of the data pin, whatever level `b` the environment answers (the listed answer,
or the free value where none is listed), stored at `idx`; no other position of `cur` changes. -/
def Obligations.SampleStoresOneBit : Prop :=
  ∀ s : State, s.Inv → s.rst.level = false → s.phase = .sample →
    ∃ t b, step s = .next t ∧ b = s.data.headD (Config.freeLevel s.draws) ∧
      t.cur.getD s.idx false = b ∧ (∀ i, i ≠ s.idx → t.cur[i]? = s.cur[i]?) ∧
      t.trace = s.trace ++ [.read b] ∧ t.phase = .ckHi ∧ t.data = s.data.tail ∧ t.draws = s.draws + 1 ∧
      t.prev = s.prev ∧ t.pw = s.pw ∧ t.idx = s.idx ∧ t.hold = s.hold ∧ SamePins s t ∧ StepFrame s t ∧ NoResponse s t

/-- Tier 1. Step `CK_HI` (R67): the clock line goes high, then a hold of `pw`. -/
def Obligations.ClockHighStep : Prop :=
  ∀ s : State, s.rst.level = false → s.hold = 0#16 → s.phase = .ckHi →
    ∃ t, step s = .next t ∧ t.oClk = true ∧ t.trace = s.trace ++ [.out .clk true, .wait s.pw] ∧ t.phase = .ckLo ∧
      t.hold = s.pw ∧ t.idx = s.idx ∧ t.oLoad = s.oLoad ∧ t.oCe = s.oCe ∧ SameVectors s t ∧ t.pw = s.pw ∧
      StepFrame s t ∧ NoSample s t ∧ NoResponse s t

/-- Tier 1. Step `CK_LO` (R68), in the two parts the model takes it in (log entry 8): the clock line goes low and a hold
of `pw` begins; when that hold has run its time, the next bit if `idx != 0`, else `IDLE` and the response with the now
complete `cur`. -/
def Obligations.ClockLowStep : Prop :=
  ∀ s : State, s.rst.level = false → s.hold = 0#16 → s.phase = .ckLo →
    (s.oClk = true → ∃ t, step s = .next t ∧ t.oClk = false ∧ t.trace = s.trace ++ [.out .clk false, .wait s.pw] ∧
      t.phase = .ckLo ∧ t.hold = s.pw ∧ t.idx = s.idx ∧ t.oLoad = s.oLoad ∧ t.oCe = s.oCe ∧ SameVectors s t ∧
      t.pw = s.pw ∧ StepFrame s t ∧ NoSample s t ∧ NoResponse s t) ∧
    (s.oClk = false → s.idx ≠ 0 → ∃ t, step s = .next t ∧ t.idx = s.idx - 1 ∧ t.phase = .sample ∧ t.hold = 0#16 ∧
      SamePins s t ∧ SameVectors s t ∧ t.pw = s.pw ∧ StepFrame s t ∧ NoSample s t ∧ t.trace = s.trace ∧
      NoResponse s t) ∧
    (s.oClk = false → s.idx = 0 → ∃ t, step s = .next t ∧ t.phase = .idle ∧ t.idx = 0 ∧ t.hold = 0#16 ∧
      SamePins s t ∧ SameVectors s t ∧ t.pw = s.pw ∧ StepFrame s t ∧ NoSample s t ∧ t.trace = s.trace ∧
      Responds s t ⟨.ok, 0x0000#16, s.cur⟩)

/-- Tier 1. A hold (R21, R66): while it runs, a step of the busy block lets time pass and changes no pin and no state;
the counter goes down by one when `tick` pulses and stays when it does not. -/
def Obligations.HoldOnlyCountsDown : Prop :=
  ∀ s : State, s.rst.level = false → s.phase ≠ .idle → s.hold ≠ 0#16 →
    ∃ t, step s = .next t ∧
      (s.tick.level = true → t.hold.toNat + 1 = s.hold.toNat) ∧ (s.tick.level = false → t.hold = s.hold) ∧
      t.phase = s.phase ∧ t.idx = s.idx ∧ SameVectors s t ∧ t.pw = s.pw ∧ SamePins s t ∧ StepFrame s t ∧
      NoSample s t ∧ t.trace = s.trace ∧ NoResponse s t

/-- Tier 2. A dead time reference (R117): if `tick` never pulses and `pw > 0`, the first hold of an accepted `POLL` never
ends; the block is busy after every number of steps and gives no response. -/
def Obligations.DeadTimeReferenceKeepsTheBlockBusy : Prop :=
  ∀ s : State, s.Inv → s.phase = .idle → (∃ w, s.presented = some w ∧ decode w = .poll) → s.rst.AlwaysLow →
    s.tick.AlwaysLow → s.pw ≠ 0#16 →
    ∀ n, ∃ t, Reaches s (n + 1) t ∧ t.cmdReady = false ∧ t.rspValid = false ∧ t.responses = s.responses

/-- Tier 2. The next-phase function (R73), with the model's two parts of `CK_LO`: it has no input but the phase, the
hold, the clock level, `idx` and, in `IDLE`, the accepted command. -/
def Obligations.PhaseFollowsTheNextPhaseTable : Prop :=
  ∀ s t : State, s.rst.level = false → step s = .next t →
    t.phase =
      if s.phase ≠ .idle ∧ s.hold ≠ 0#16 then s.phase else
      match s.phase with
      | .idle => if s.presented.map decode = some .poll then .ceHi else .idle
      | .ceHi => .ldLo
      | .ldLo => .ldHi
      | .ldHi => .ceLo
      | .ceLo => .sample
      | .sample => .ckHi
      | .ckHi => .ckLo
      | .ckLo => if s.oClk = true then .ckLo else if s.idx = 0 then .idle else .sample

/-- Tier 2. The decode function (R70): `v[W-1-k] = s_k`, in chip terms bit `7 - k % 8` of chip
`CHIP_COUNT - 1 - k / 8`; and as a number the samples read most significant digit first. -/
def Obligations.DecodeIsMostSignificantFirst : Prop :=
  ∀ (c : Nat) (S : Bits), S.length = Config.width c →
    (decodeSamples S).length = S.length ∧
    (∀ k, k < S.length →
      (decodeSamples S)[S.length - 1 - k]? = S[k]? ∧
      (chipBits (decodeSamples S) (c - 1 - k / 8))[7 - k % 8]? = S[k]?) ∧
    bitsToNat (decodeSamples S) = S.foldl (fun x b => 2 * x + b.toNat) 0

/-- Tier 2. The pin trace of one poll (R69) has `6 + 5*W` events: `4 + 2*W` `Out`, `W` `In`, `2 + 2*W` `Wait`, all the
`Wait`s of one width; the samples are its `In` events in order. -/
def Obligations.PollTraceCounts : Prop :=
  ∀ (P : Arg) (S : Bits), let tr := pollTrace P S
    tr.length = 6 + 5 * S.length ∧
    tr.countP PinEvent.isOut = 4 + 2 * S.length ∧
    tr.filterMap PinEvent.sample? = S ∧
    tr.filterMap PinEvent.wait? = List.replicate (2 + 2 * S.length) P

/-- Tier 3. `POLL` as a whole (R59, R69, R70): presented to an idle block with the time reference live and no reset, it
ends, with `cur` the decoded samples, `prev` the old `cur`, exactly one response, carrying `cur`, exactly the pin trace
of R69, the pins at `LOAD = 1, CLK = 0, CE = 0`, and `pw` unchanged. The samples are whatever the environment answers. -/
def Obligations.PollRunsToItsResponse : Prop :=
  ∀ s : State, s.Inv → s.PollGoesAhead →
    ∃ n t, Reaches s n t ∧ t.phase = .idle ∧
      t.cur = decodeSamples s.samples ∧ t.prev = s.cur ∧ t.pw = s.pw ∧ t.idx = 0 ∧ t.hold = 0#16 ∧
      t.oLoad = true ∧ t.oClk = false ∧ t.oCe = false ∧ t.chipCount = s.chipCount ∧
      t.data = s.data.drop s.width ∧ t.draws = s.draws + s.width ∧
      t.trace = s.trace ++ pollTrace s.pw s.samples ∧
      Responds s t ⟨.ok, 0x0000#16, decodeSamples s.samples⟩

/-- Tier 3. Frames (R71): after two polls in a row, `cur` is the decode of the second poll's samples and `prev` that of
the first's. -/
def Obligations.TwoPollsLeaveTheTwoFrames : Prop :=
  ∀ (s : State) (w w' : Word) (cs : List (Option Word)), s.Inv → s.PollGoesAhead →
    s.cmds = some w :: some w' :: cs → decode w' = .poll →
    ∃ n t, Reaches s n t ∧ t.phase = .idle ∧
      t.prev = decodeSamples s.samples ∧
      t.cur = decodeSamples (answersFrom (s.data.drop s.width) (s.draws + s.width) s.width) ∧
      t.responses = s.responses ++
        [⟨.ok, 0x0000#16, t.prev⟩, ⟨.ok, 0x0000#16, t.cur⟩]

/-- Tier 3. The first frame (R114): a poll taken while `cur` is still the reset zero vector ends in a state where, for
every valid `i`, `PRESSED i` answers `cur[i]` and `RELEASED i` answers 0. -/
def Obligations.FirstFrameReportsHighInputsAsPressed : Prop :=
  ∀ s : State, s.Inv → s.PollGoesAhead → s.cur = List.replicate s.width false →
    ∃ n t, Reaches s n t ∧ t.phase = .idle ∧ s.responses.length < t.responses.length ∧
      t.cur = decodeSamples s.samples ∧ ∀ i, i < s.width →
        Answers (.pressed i) t ⟨.ok, boolData (t.cur.getD i false), List.replicate s.width false⟩ ∧
        Answers (.released i) t ⟨.ok, 0x0000#16, List.replicate s.width false⟩

/-- Tier 3. What `pw` affects (R90): two polls that differ only in `pw` and receive the same samples end in the same
`cur` and `prev`, give the same response, and make the same pin events in the same order but for the number inside the
`Wait`s; every query, valid or faulting, then answers the same after both. -/
def Obligations.PulseWidthAffectsOnlyTheWaits : Prop :=
  ∀ (s : State) (v : Arg), s.Inv → s.PollGoesAhead →
    ∃ n t n' t', Reaches s n t ∧ Reaches { s with pw := v } n' t' ∧ t.phase = .idle ∧ t'.phase = .idle ∧
      s.responses.length < t.responses.length ∧ t.responses = t'.responses ∧ t.cur = t'.cur ∧ t.prev = t'.prev ∧
      SamePins t t' ∧ t.trace.map PinEvent.withoutWidth = t'.trace.map PinEvent.withoutWidth ∧
      ∀ (i : Nat) (r : Response),
        ∀ q ∈ [Instr.state i, .last i, .changed i, .changedAny, .pressed i, .released i, .rawState],
          (Answers q t r ↔ Answers q t' r)

/-- Tier 3. Duration (R122): a poll lasts at least `pw * (2 + 2*WIDTH)` time units, whenever and however irregularly `tick`
pulses: while fewer have passed since the step that accepts it, no response has been given. -/
def Obligations.PollLastsAtLeastItsHolds : Prop :=
  ∀ (s : State) (n : Nat), s.Inv → s.phase = .idle → (∃ w, s.presented = some w ∧ decode w = .poll) →
    s.rst.AlwaysLow → s.timeUnits n < s.pw.toNat * (2 + 2 * s.width) →
    ∃ t, Reaches s n t ∧ t.responses = s.responses

/-- Tier 3. Against the reference chain of 93_implementation_defined.md G1, which is general knowledge and not the
source's (log entry 17): if every sample of the poll is what the chain gives, whatever it held before, then after the
poll logical input `i` is parallel input `i % 8` of chip `i / 8`: `cur` equals the levels on the chain's inputs. -/
def Obligations.PollReadsTheReferenceChain : Prop :=
  ∀ (s : State) (c : Chain), s.Inv → s.PollGoesAhead →
    c.sr.length = s.width → c.ext.length = s.width → c.load = s.oLoad → c.clk = s.oClk → c.ce = s.oCe →
    c.Gives (pollTrace s.pw s.samples) →
    ∃ n t, Reaches s n t ∧ t.phase = .idle ∧ s.responses.length < t.responses.length ∧ t.cur = c.ext

/-! ## Invariants and whole-machine rules -/

/-- Tier 1. Every block that can be built meets the invariant after reset. -/
def Obligations.ResetMeetsTheInvariant : Prop :=
  State.reset.Inv ∧ ∀ n s, launch n = .next s → s.Inv

/-- Tier 3. Every step keeps the invariant: the vectors keep `WIDTH` elements, the positions not yet sampled are zero,
`idx` stays in range and is 0 in `IDLE`, a hold remains only where the phase has one, the pins have the levels that go
with the phase, a busy block gives no response. -/
def Obligations.EveryStepKeepsTheInvariant : Prop :=
  ∀ s t : State, s.Inv → step s = .next t → t.Inv

/-- Tier 2. `WIDTH = CHIP_COUNT * 8`, immutable after construction and between 8 and 65528 (R6): after any number of
steps, resets among them. -/
def Obligations.WidthIsImmutable : Prop :=
  ∀ (s t : State) (n : Nat), s.Inv → Reaches s n t →
    t.chipCount = s.chipCount ∧ t.width = s.chipCount * 8 ∧ 8 ≤ t.width ∧ t.width ≤ 65528

/-- Tier 2. The two vectors are written by reset and by `POLL` alone (R33): `prev` only at the acceptance of a poll, `cur`
there and, one bit at a time, at `idx`, in `SAMPLE`. -/
def Obligations.OnlyPollOrResetChangesTheVectors : Prop :=
  ∀ s t : State, step s = .next t → s.rst.level = false →
    (t.prev ≠ s.prev → s.phase = .idle ∧ (∃ w, s.presented = some w ∧ decode w = .poll) ∧ t.prev = s.cur) ∧
    (t.cur ≠ s.cur →
      (s.phase = .idle ∧ (∃ w, s.presented = some w ∧ decode w = .poll) ∧ t.cur = List.replicate s.width false) ∨
      (s.phase = .sample ∧ s.hold = 0#16 ∧ ∀ i, i ≠ s.idx → t.cur[i]? = s.cur[i]?))

/-- Tier 2. The pins (R38): a step adds to the trace and never takes from it; it adds an event only in a busy step in
which no hold runs; an `Out(p, v)` leaves pin `p` at `v`; a pin changes level only by an `Out` recorded in that step, and
only in the phases that name it; no step changes two pins. -/
def Obligations.PinsChangeOneAtATimeByRecordedEvents : Prop :=
  ∀ s t : State, step s = .next t → s.rst.level = false →
    ∃ es, t.trace = s.trace ++ es ∧ es.length ≤ 2 ∧
      (es ≠ [] → s.phase ≠ .idle ∧ s.hold = 0#16) ∧
      (∀ p v, PinEvent.out p v ∈ es → t.pinLevel p = v) ∧
      (∀ p, t.pinLevel p ≠ s.pinLevel p → PinEvent.out p (t.pinLevel p) ∈ es) ∧
      (∀ v, PinEvent.out .ce v ∈ es → s.phase = .ceHi ∨ s.phase = .ceLo) ∧
      (∀ v, PinEvent.out .load v ∈ es → s.phase = .ldLo ∨ s.phase = .ldHi) ∧
      (∀ v, PinEvent.out .clk v ∈ es → s.phase = .ckHi ∨ s.phase = .ckLo) ∧
      ∀ p q, t.pinLevel p ≠ s.pinLevel p → t.pinLevel q ≠ s.pinLevel q → p = q

/-- Tier 2. When a response is given (R52): in the step that accepts a command other than `POLL`, the phase staying
`IDLE`, and in the last step of a poll, and in no other, a step with `rst` high among them; each is recorded once. -/
def Obligations.ResponsesComeExactlyWhenDue : Prop :=
  ∀ s t : State, step s = .next t →
    t.responses = s.responses ++ t.rsp.toList ∧
    (t.rspValid = true ↔ s.rst.level = false ∧
      ((s.phase = .idle ∧ ∃ w, s.presented = some w ∧ decode w ≠ .poll) ∨
       (s.phase = .ckLo ∧ s.hold = 0#16 ∧ s.oClk = false ∧ s.idx = 0))) ∧
    (t.rspValid = true → t.phase = .idle)

/-- Tier 2. What a response carries: status code 3 is never produced (R51); with a status other than `OK` the data word
and the vector are zero, and the vector always has `WIDTH` elements (R50). -/
def Obligations.FaultResponsesCarryZeros : Prop :=
  ∀ (s t : State) (r : Response), s.Inv → step s = .next t → t.rsp = some r →
    r.status.code ≠ 3#2 ∧ r.vec.length = s.width ∧
    (r.status ≠ .ok → r.data = 0x0000#16 ∧ r.vec = List.replicate s.width false)

/-- Tier 2. A run that is over stays over (R124): with no reset and nothing more to present, any number of steps leaves
the responses, the pin trace and every register as they are. -/
def Obligations.FinishedRunStaysFinished : Prop :=
  ∀ (s : State) (n : Nat), s.runOver → s.rst.AlwaysLow →
    ∃ t, Reaches s n t ∧ t.runOver ∧ SameBlock s t ∧ t.trace = s.trace ∧ t.responses = s.responses

/-! ## The input-index space -/

/-- Tier 2. The index map (R35): index `i` is bit `i % 8` of chip `i / 8`, every valid index names a chip that exists,
and reading it in its chip's byte gives the bit of the vector. -/
def Obligations.IndexMapNamesChipAndBit : Prop :=
  ∀ (s : State) (v : Bits) (i : Nat), v.length = s.width → i < s.width →
    chipId i < s.chipCount ∧ bitInChip i < 8 ∧ i = 8 * chipId i + bitInChip i ∧
    (chipBits v (chipId i)).length = 8 ∧ (chipBits v (chipId i))[bitInChip i]? = v[i]?

/-- Tier 2. The packing of a vector as a number (R40 (b), (c)): element `i` has weight `2^i`, and byte `c` of the number is
the byte of chip `c`. -/
def Obligations.VectorPacksElementIAtWeightTwoToTheI : Prop :=
  ∀ v : Bits,
    bitsToNat v < 2 ^ v.length ∧ (∀ i, (bitsToNat v).testBit i = v.getD i false) ∧
    bitsOfNat v.length (bitsToNat v) = v ∧
    ∀ c, bitsToNat v / 256 ^ c % 256 = bitsToNat (chipBits v c)
end

