-- ==== Sys2Proof/Laws/Decode.lean ====
section
/-! SUPPORT. The two fields of a command word, read and written. -/

namespace Sys2Proof

/-- The `op` of a word put together from its two fields. -/
theorem opField_append (op : BitVec 4) (arg : Arg) : opField (op ++ arg) = op := by
  unfold opField
  ext i hi
  rw [BitVec.getElem_extractLsb', BitVec.getLsbD_append]
  simp [BitVec.getLsbD_eq_getElem hi]

/-- The `arg` of a word put together from its two fields. -/
theorem argField_append (op : BitVec 4) (arg : Arg) : argField (op ++ arg) = arg := by
  unfold argField
  ext i hi
  rw [BitVec.getElem_extractLsb', BitVec.getLsbD_append]
  simp [hi]

/-- A word is its two fields side by side, `{op, arg}`: no bit of it belongs to neither. -/
theorem append_fields (w : Word) : (opField w ++ argField w : Word) = w := by
  unfold opField argField
  ext i hi
  simp only [BitVec.getElem_append, BitVec.getElem_extractLsb']
  split
  · simp [BitVec.getLsbD_eq_getElem hi]
  · rw [← BitVec.getLsbD_eq_getElem hi]
    congr 1
    omega

theorem opField_encode (i : Instr) : opField (encode i) = i.opcode := opField_append _ _

theorem argField_encode (i : Instr) : argField (encode i) = i.operand := argField_append _ _

/-- An index that fits the operand field is read back as it was written. -/
theorem index_toNat {i : Nat} (h : indexFits i = true) : (BitVec.ofNat 16 i).toNat = i := by
  have h : i < 2 ^ 16 := by simpa [indexFits] using h
  rw [BitVec.toNat_ofNat, Nat.mod_eq_of_lt h]

/-- A number that fits the port is decoded as the word it is. -/
theorem decodeTableWord_eq {nbits w : Nat} (h : w < 2 ^ nbits) (h' : w < 2 ^ 20) :
    decodeTableWord nbits w = some (decode (BitVec.ofNat 20 w)) := by
  rw [decodeTableWord, Nat.mod_eq_of_lt h, decodeNumber, if_pos h']

end Sys2Proof
end

