-- ==== Sys2Proof/Laws/State.lean ====
section
/-! SUPPORT. What each update of the state does to each field, and to `WIDTH`: one lemma per field, true by `rfl`, so that
no later proof unfolds a record update. -/

namespace Sys2Proof.Machine

open Sys2Proof

variable (s : State)

@[simp] theorem State.clock_chipCount : s.clock.chipCount = s.chipCount := rfl
@[simp] theorem State.clock_cur : s.clock.cur = s.cur := rfl
@[simp] theorem State.clock_prev : s.clock.prev = s.prev := rfl
@[simp] theorem State.clock_pw : s.clock.pw = s.pw := rfl
@[simp] theorem State.clock_phase : s.clock.phase = s.phase := rfl
@[simp] theorem State.clock_idx : s.clock.idx = s.idx := rfl
@[simp] theorem State.clock_oLoad : s.clock.oLoad = s.oLoad := rfl
@[simp] theorem State.clock_oClk : s.clock.oClk = s.oClk := rfl
@[simp] theorem State.clock_oCe : s.clock.oCe = s.oCe := rfl
@[simp] theorem State.clock_hold : s.clock.hold = s.hold := rfl
@[simp] theorem State.clock_rst : s.clock.rst = s.rst.pop := rfl
@[simp] theorem State.clock_tick : s.clock.tick = s.tick.pop := rfl
@[simp] theorem State.clock_cmds : s.clock.cmds = waiting s.cmds := rfl
@[simp] theorem State.clock_data : s.clock.data = s.data := rfl
@[simp] theorem State.clock_draws : s.clock.draws = s.draws := rfl
@[simp] theorem State.clock_rsp : s.clock.rsp = none := rfl
@[simp] theorem State.clock_responses : s.clock.responses = s.responses := rfl
@[simp] theorem State.clock_trace : s.clock.trace = s.trace := rfl
@[simp] theorem State.clock_width : s.clock.width = s.width := rfl

@[simp] theorem State.accept_chipCount : s.accept.chipCount = s.chipCount := rfl
@[simp] theorem State.accept_cur : s.accept.cur = s.cur := rfl
@[simp] theorem State.accept_prev : s.accept.prev = s.prev := rfl
@[simp] theorem State.accept_pw : s.accept.pw = s.pw := rfl
@[simp] theorem State.accept_phase : s.accept.phase = s.phase := rfl
@[simp] theorem State.accept_idx : s.accept.idx = s.idx := rfl
@[simp] theorem State.accept_oLoad : s.accept.oLoad = s.oLoad := rfl
@[simp] theorem State.accept_oClk : s.accept.oClk = s.oClk := rfl
@[simp] theorem State.accept_oCe : s.accept.oCe = s.oCe := rfl
@[simp] theorem State.accept_hold : s.accept.hold = s.hold := rfl
@[simp] theorem State.accept_rst : s.accept.rst = s.rst.pop := rfl
@[simp] theorem State.accept_tick : s.accept.tick = s.tick.pop := rfl
@[simp] theorem State.accept_cmds : s.accept.cmds = s.cmds.tail := rfl
@[simp] theorem State.accept_data : s.accept.data = s.data := rfl
@[simp] theorem State.accept_draws : s.accept.draws = s.draws := rfl
@[simp] theorem State.accept_rsp : s.accept.rsp = none := rfl
@[simp] theorem State.accept_responses : s.accept.responses = s.responses := rfl
@[simp] theorem State.accept_trace : s.accept.trace = s.trace := rfl
@[simp] theorem State.accept_width : s.accept.width = s.width := rfl

@[simp] theorem State.respond_chipCount (r : Response) : (s.respond r).chipCount = s.chipCount := rfl
@[simp] theorem State.respond_cur (r : Response) : (s.respond r).cur = s.cur := rfl
@[simp] theorem State.respond_prev (r : Response) : (s.respond r).prev = s.prev := rfl
@[simp] theorem State.respond_pw (r : Response) : (s.respond r).pw = s.pw := rfl
@[simp] theorem State.respond_phase (r : Response) : (s.respond r).phase = s.phase := rfl
@[simp] theorem State.respond_idx (r : Response) : (s.respond r).idx = s.idx := rfl
@[simp] theorem State.respond_oLoad (r : Response) : (s.respond r).oLoad = s.oLoad := rfl
@[simp] theorem State.respond_oClk (r : Response) : (s.respond r).oClk = s.oClk := rfl
@[simp] theorem State.respond_oCe (r : Response) : (s.respond r).oCe = s.oCe := rfl
@[simp] theorem State.respond_hold (r : Response) : (s.respond r).hold = s.hold := rfl
@[simp] theorem State.respond_rst (r : Response) : (s.respond r).rst = s.rst := rfl
@[simp] theorem State.respond_tick (r : Response) : (s.respond r).tick = s.tick := rfl
@[simp] theorem State.respond_cmds (r : Response) : (s.respond r).cmds = s.cmds := rfl
@[simp] theorem State.respond_data (r : Response) : (s.respond r).data = s.data := rfl
@[simp] theorem State.respond_draws (r : Response) : (s.respond r).draws = s.draws := rfl
@[simp] theorem State.respond_rsp (r : Response) : (s.respond r).rsp = some r := rfl
@[simp] theorem State.respond_responses (r : Response) : (s.respond r).responses = s.responses ++ [r] := rfl
@[simp] theorem State.respond_trace (r : Response) : (s.respond r).trace = s.trace := rfl
@[simp] theorem State.respond_width (r : Response) : (s.respond r).width = s.width := rfl

@[simp] theorem State.out_chipCount (p : Pin) (v : Bool) : (s.out p v).chipCount = s.chipCount := rfl
@[simp] theorem State.out_cur (p : Pin) (v : Bool) : (s.out p v).cur = s.cur := rfl
@[simp] theorem State.out_prev (p : Pin) (v : Bool) : (s.out p v).prev = s.prev := rfl
@[simp] theorem State.out_pw (p : Pin) (v : Bool) : (s.out p v).pw = s.pw := rfl
@[simp] theorem State.out_phase (p : Pin) (v : Bool) : (s.out p v).phase = s.phase := rfl
@[simp] theorem State.out_idx (p : Pin) (v : Bool) : (s.out p v).idx = s.idx := rfl
@[simp] theorem State.out_oLoad (p : Pin) (v : Bool) : (s.out p v).oLoad = if p = .load then v else s.oLoad := rfl
@[simp] theorem State.out_oClk (p : Pin) (v : Bool) : (s.out p v).oClk = if p = .clk then v else s.oClk := rfl
@[simp] theorem State.out_oCe (p : Pin) (v : Bool) : (s.out p v).oCe = if p = .ce then v else s.oCe := rfl
@[simp] theorem State.out_hold (p : Pin) (v : Bool) : (s.out p v).hold = s.hold := rfl
@[simp] theorem State.out_rst (p : Pin) (v : Bool) : (s.out p v).rst = s.rst := rfl
@[simp] theorem State.out_tick (p : Pin) (v : Bool) : (s.out p v).tick = s.tick := rfl
@[simp] theorem State.out_cmds (p : Pin) (v : Bool) : (s.out p v).cmds = s.cmds := rfl
@[simp] theorem State.out_data (p : Pin) (v : Bool) : (s.out p v).data = s.data := rfl
@[simp] theorem State.out_draws (p : Pin) (v : Bool) : (s.out p v).draws = s.draws := rfl
@[simp] theorem State.out_rsp (p : Pin) (v : Bool) : (s.out p v).rsp = s.rsp := rfl
@[simp] theorem State.out_responses (p : Pin) (v : Bool) : (s.out p v).responses = s.responses := rfl
@[simp] theorem State.out_trace (p : Pin) (v : Bool) : (s.out p v).trace = s.trace ++ [.out p v] := rfl
@[simp] theorem State.out_width (p : Pin) (v : Bool) : (s.out p v).width = s.width := rfl

@[simp] theorem State.wait_chipCount : s.wait.chipCount = s.chipCount := rfl
@[simp] theorem State.wait_cur : s.wait.cur = s.cur := rfl
@[simp] theorem State.wait_prev : s.wait.prev = s.prev := rfl
@[simp] theorem State.wait_pw : s.wait.pw = s.pw := rfl
@[simp] theorem State.wait_phase : s.wait.phase = s.phase := rfl
@[simp] theorem State.wait_idx : s.wait.idx = s.idx := rfl
@[simp] theorem State.wait_oLoad : s.wait.oLoad = s.oLoad := rfl
@[simp] theorem State.wait_oClk : s.wait.oClk = s.oClk := rfl
@[simp] theorem State.wait_oCe : s.wait.oCe = s.oCe := rfl
@[simp] theorem State.wait_hold : s.wait.hold = s.pw := rfl
@[simp] theorem State.wait_rst : s.wait.rst = s.rst := rfl
@[simp] theorem State.wait_tick : s.wait.tick = s.tick := rfl
@[simp] theorem State.wait_cmds : s.wait.cmds = s.cmds := rfl
@[simp] theorem State.wait_data : s.wait.data = s.data := rfl
@[simp] theorem State.wait_draws : s.wait.draws = s.draws := rfl
@[simp] theorem State.wait_rsp : s.wait.rsp = s.rsp := rfl
@[simp] theorem State.wait_responses : s.wait.responses = s.responses := rfl
@[simp] theorem State.wait_trace : s.wait.trace = s.trace ++ [.wait s.pw] := rfl
@[simp] theorem State.wait_width : s.wait.width = s.width := rfl

@[simp] theorem State.passTime_chipCount (tick : Bool) : (s.passTime tick).chipCount = s.chipCount := rfl
@[simp] theorem State.passTime_cur (tick : Bool) : (s.passTime tick).cur = s.cur := rfl
@[simp] theorem State.passTime_prev (tick : Bool) : (s.passTime tick).prev = s.prev := rfl
@[simp] theorem State.passTime_pw (tick : Bool) : (s.passTime tick).pw = s.pw := rfl
@[simp] theorem State.passTime_phase (tick : Bool) : (s.passTime tick).phase = s.phase := rfl
@[simp] theorem State.passTime_idx (tick : Bool) : (s.passTime tick).idx = s.idx := rfl
@[simp] theorem State.passTime_oLoad (tick : Bool) : (s.passTime tick).oLoad = s.oLoad := rfl
@[simp] theorem State.passTime_oClk (tick : Bool) : (s.passTime tick).oClk = s.oClk := rfl
@[simp] theorem State.passTime_oCe (tick : Bool) : (s.passTime tick).oCe = s.oCe := rfl
@[simp] theorem State.passTime_hold (tick : Bool) : (s.passTime tick).hold = if tick then s.hold - 1#16 else s.hold := rfl
@[simp] theorem State.passTime_rst (tick : Bool) : (s.passTime tick).rst = s.rst := rfl
@[simp] theorem State.passTime_tick (tick : Bool) : (s.passTime tick).tick = s.tick := rfl
@[simp] theorem State.passTime_cmds (tick : Bool) : (s.passTime tick).cmds = s.cmds := rfl
@[simp] theorem State.passTime_data (tick : Bool) : (s.passTime tick).data = s.data := rfl
@[simp] theorem State.passTime_draws (tick : Bool) : (s.passTime tick).draws = s.draws := rfl
@[simp] theorem State.passTime_rsp (tick : Bool) : (s.passTime tick).rsp = s.rsp := rfl
@[simp] theorem State.passTime_responses (tick : Bool) : (s.passTime tick).responses = s.responses := rfl
@[simp] theorem State.passTime_trace (tick : Bool) : (s.passTime tick).trace = s.trace := rfl
@[simp] theorem State.passTime_width (tick : Bool) : (s.passTime tick).width = s.width := rfl

@[simp] theorem State.goto_chipCount (p : Phase) : (s.goto p).chipCount = s.chipCount := rfl
@[simp] theorem State.goto_cur (p : Phase) : (s.goto p).cur = s.cur := rfl
@[simp] theorem State.goto_prev (p : Phase) : (s.goto p).prev = s.prev := rfl
@[simp] theorem State.goto_pw (p : Phase) : (s.goto p).pw = s.pw := rfl
@[simp] theorem State.goto_phase (p : Phase) : (s.goto p).phase = p := rfl
@[simp] theorem State.goto_idx (p : Phase) : (s.goto p).idx = s.idx := rfl
@[simp] theorem State.goto_oLoad (p : Phase) : (s.goto p).oLoad = s.oLoad := rfl
@[simp] theorem State.goto_oClk (p : Phase) : (s.goto p).oClk = s.oClk := rfl
@[simp] theorem State.goto_oCe (p : Phase) : (s.goto p).oCe = s.oCe := rfl
@[simp] theorem State.goto_hold (p : Phase) : (s.goto p).hold = s.hold := rfl
@[simp] theorem State.goto_rst (p : Phase) : (s.goto p).rst = s.rst := rfl
@[simp] theorem State.goto_tick (p : Phase) : (s.goto p).tick = s.tick := rfl
@[simp] theorem State.goto_cmds (p : Phase) : (s.goto p).cmds = s.cmds := rfl
@[simp] theorem State.goto_data (p : Phase) : (s.goto p).data = s.data := rfl
@[simp] theorem State.goto_draws (p : Phase) : (s.goto p).draws = s.draws := rfl
@[simp] theorem State.goto_rsp (p : Phase) : (s.goto p).rsp = s.rsp := rfl
@[simp] theorem State.goto_responses (p : Phase) : (s.goto p).responses = s.responses := rfl
@[simp] theorem State.goto_trace (p : Phase) : (s.goto p).trace = s.trace := rfl
@[simp] theorem State.goto_width (p : Phase) : (s.goto p).width = s.width := rfl

@[simp] theorem State.takeSample_chipCount : s.takeSample.chipCount = s.chipCount := rfl
@[simp] theorem State.takeSample_cur : s.takeSample.cur = writeBit s.cur s.idx s.dataLevel := rfl
@[simp] theorem State.takeSample_prev : s.takeSample.prev = s.prev := rfl
@[simp] theorem State.takeSample_pw : s.takeSample.pw = s.pw := rfl
@[simp] theorem State.takeSample_phase : s.takeSample.phase = s.phase := rfl
@[simp] theorem State.takeSample_idx : s.takeSample.idx = s.idx := rfl
@[simp] theorem State.takeSample_oLoad : s.takeSample.oLoad = s.oLoad := rfl
@[simp] theorem State.takeSample_oClk : s.takeSample.oClk = s.oClk := rfl
@[simp] theorem State.takeSample_oCe : s.takeSample.oCe = s.oCe := rfl
@[simp] theorem State.takeSample_hold : s.takeSample.hold = s.hold := rfl
@[simp] theorem State.takeSample_rst : s.takeSample.rst = s.rst := rfl
@[simp] theorem State.takeSample_tick : s.takeSample.tick = s.tick := rfl
@[simp] theorem State.takeSample_cmds : s.takeSample.cmds = s.cmds := rfl
@[simp] theorem State.takeSample_data : s.takeSample.data = s.data.tail := rfl
@[simp] theorem State.takeSample_draws : s.takeSample.draws = s.draws + 1 := rfl
@[simp] theorem State.takeSample_rsp : s.takeSample.rsp = s.rsp := rfl
@[simp] theorem State.takeSample_responses : s.takeSample.responses = s.responses := rfl
@[simp] theorem State.takeSample_trace : s.takeSample.trace = s.trace ++ [.read s.dataLevel] := rfl
@[simp] theorem State.takeSample_width : s.takeSample.width = s.width := rfl

@[simp] theorem State.latchFrame_chipCount : s.latchFrame.chipCount = s.chipCount := rfl
@[simp] theorem State.latchFrame_cur : s.latchFrame.cur = zeros s.width := rfl
@[simp] theorem State.latchFrame_prev : s.latchFrame.prev = s.cur := rfl
@[simp] theorem State.latchFrame_pw : s.latchFrame.pw = s.pw := rfl
@[simp] theorem State.latchFrame_phase : s.latchFrame.phase = s.phase := rfl
@[simp] theorem State.latchFrame_idx : s.latchFrame.idx = s.width - 1 := rfl
@[simp] theorem State.latchFrame_oLoad : s.latchFrame.oLoad = s.oLoad := rfl
@[simp] theorem State.latchFrame_oClk : s.latchFrame.oClk = s.oClk := rfl
@[simp] theorem State.latchFrame_oCe : s.latchFrame.oCe = s.oCe := rfl
@[simp] theorem State.latchFrame_hold : s.latchFrame.hold = s.hold := rfl
@[simp] theorem State.latchFrame_rst : s.latchFrame.rst = s.rst := rfl
@[simp] theorem State.latchFrame_tick : s.latchFrame.tick = s.tick := rfl
@[simp] theorem State.latchFrame_cmds : s.latchFrame.cmds = s.cmds := rfl
@[simp] theorem State.latchFrame_data : s.latchFrame.data = s.data := rfl
@[simp] theorem State.latchFrame_draws : s.latchFrame.draws = s.draws := rfl
@[simp] theorem State.latchFrame_rsp : s.latchFrame.rsp = s.rsp := rfl
@[simp] theorem State.latchFrame_responses : s.latchFrame.responses = s.responses := rfl
@[simp] theorem State.latchFrame_trace : s.latchFrame.trace = s.trace := rfl
@[simp] theorem State.latchFrame_width : s.latchFrame.width = s.width := rfl

@[simp] theorem State.countDown_chipCount : s.countDown.chipCount = s.chipCount := rfl
@[simp] theorem State.countDown_cur : s.countDown.cur = s.cur := rfl
@[simp] theorem State.countDown_prev : s.countDown.prev = s.prev := rfl
@[simp] theorem State.countDown_pw : s.countDown.pw = s.pw := rfl
@[simp] theorem State.countDown_phase : s.countDown.phase = s.phase := rfl
@[simp] theorem State.countDown_idx : s.countDown.idx = s.idx - 1 := rfl
@[simp] theorem State.countDown_oLoad : s.countDown.oLoad = s.oLoad := rfl
@[simp] theorem State.countDown_oClk : s.countDown.oClk = s.oClk := rfl
@[simp] theorem State.countDown_oCe : s.countDown.oCe = s.oCe := rfl
@[simp] theorem State.countDown_hold : s.countDown.hold = s.hold := rfl
@[simp] theorem State.countDown_rst : s.countDown.rst = s.rst := rfl
@[simp] theorem State.countDown_tick : s.countDown.tick = s.tick := rfl
@[simp] theorem State.countDown_cmds : s.countDown.cmds = s.cmds := rfl
@[simp] theorem State.countDown_data : s.countDown.data = s.data := rfl
@[simp] theorem State.countDown_draws : s.countDown.draws = s.draws := rfl
@[simp] theorem State.countDown_rsp : s.countDown.rsp = s.rsp := rfl
@[simp] theorem State.countDown_responses : s.countDown.responses = s.responses := rfl
@[simp] theorem State.countDown_trace : s.countDown.trace = s.trace := rfl
@[simp] theorem State.countDown_width : s.countDown.width = s.width := rfl

@[simp] theorem State.setPw_chipCount (v : Arg) : (s.setPw v).chipCount = s.chipCount := rfl
@[simp] theorem State.setPw_cur (v : Arg) : (s.setPw v).cur = s.cur := rfl
@[simp] theorem State.setPw_prev (v : Arg) : (s.setPw v).prev = s.prev := rfl
@[simp] theorem State.setPw_pw (v : Arg) : (s.setPw v).pw = v := rfl
@[simp] theorem State.setPw_phase (v : Arg) : (s.setPw v).phase = s.phase := rfl
@[simp] theorem State.setPw_idx (v : Arg) : (s.setPw v).idx = s.idx := rfl
@[simp] theorem State.setPw_oLoad (v : Arg) : (s.setPw v).oLoad = s.oLoad := rfl
@[simp] theorem State.setPw_oClk (v : Arg) : (s.setPw v).oClk = s.oClk := rfl
@[simp] theorem State.setPw_oCe (v : Arg) : (s.setPw v).oCe = s.oCe := rfl
@[simp] theorem State.setPw_hold (v : Arg) : (s.setPw v).hold = s.hold := rfl
@[simp] theorem State.setPw_rst (v : Arg) : (s.setPw v).rst = s.rst := rfl
@[simp] theorem State.setPw_tick (v : Arg) : (s.setPw v).tick = s.tick := rfl
@[simp] theorem State.setPw_cmds (v : Arg) : (s.setPw v).cmds = s.cmds := rfl
@[simp] theorem State.setPw_data (v : Arg) : (s.setPw v).data = s.data := rfl
@[simp] theorem State.setPw_draws (v : Arg) : (s.setPw v).draws = s.draws := rfl
@[simp] theorem State.setPw_rsp (v : Arg) : (s.setPw v).rsp = s.rsp := rfl
@[simp] theorem State.setPw_responses (v : Arg) : (s.setPw v).responses = s.responses := rfl
@[simp] theorem State.setPw_trace (v : Arg) : (s.setPw v).trace = s.trace := rfl
@[simp] theorem State.setPw_width (v : Arg) : (s.setPw v).width = s.width := rfl

@[simp] theorem State.resetBlock_chipCount : s.resetBlock.chipCount = s.chipCount := rfl
@[simp] theorem State.resetBlock_cur : s.resetBlock.cur = zeros s.width := rfl
@[simp] theorem State.resetBlock_prev : s.resetBlock.prev = zeros s.width := rfl
@[simp] theorem State.resetBlock_pw : s.resetBlock.pw = Config.pwDefault := rfl
@[simp] theorem State.resetBlock_phase : s.resetBlock.phase = .idle := rfl
@[simp] theorem State.resetBlock_idx : s.resetBlock.idx = 0 := rfl
@[simp] theorem State.resetBlock_oLoad : s.resetBlock.oLoad = Config.loadReset := rfl
@[simp] theorem State.resetBlock_oClk : s.resetBlock.oClk = Config.clkReset := rfl
@[simp] theorem State.resetBlock_oCe : s.resetBlock.oCe = Config.ceReset := rfl
@[simp] theorem State.resetBlock_hold : s.resetBlock.hold = 0#16 := rfl
@[simp] theorem State.resetBlock_rst : s.resetBlock.rst = s.rst := rfl
@[simp] theorem State.resetBlock_tick : s.resetBlock.tick = s.tick := rfl
@[simp] theorem State.resetBlock_cmds : s.resetBlock.cmds = s.cmds := rfl
@[simp] theorem State.resetBlock_data : s.resetBlock.data = s.data := rfl
@[simp] theorem State.resetBlock_draws : s.resetBlock.draws = s.draws := rfl
@[simp] theorem State.resetBlock_rsp : s.resetBlock.rsp = s.rsp := rfl
@[simp] theorem State.resetBlock_responses : s.resetBlock.responses = s.responses := rfl
@[simp] theorem State.resetBlock_trace : s.resetBlock.trace = s.trace := rfl
@[simp] theorem State.resetBlock_width : s.resetBlock.width = s.width := rfl

/-! The two operations that answer a command are `respond` with a response of their own. -/

@[simp] theorem State.respondOk_eq (d : Arg) (v : Bits) : s.respondOk d v = s.respond ⟨.ok, d, v⟩ := rfl

@[simp] theorem State.raise_eq (f : CommandFault) : s.raise f = s.respond ⟨statusOf f, 0#16, zeros s.width⟩ := rfl

@[simp] theorem State.resetWith_width (n : Nat) : (State.resetWith n).width = n * 8 := rfl

end Sys2Proof.Machine
end

