-- ==== Sys2Proof/Laws/Ops.lean ====
section
/-! SUPPORT. One lemma for each shared operation: vectors keep their length and are read back as written; an indexed
query answers or faults; a busy step is a step of the hold or of the sequencer. -/

namespace Sys2Proof.Machine

open Sys2Proof

/-! ### Vectors -/

@[simp] theorem zeros_length (n : Nat) : (zeros n).length = n := by simp [zeros]

@[simp] theorem readBit_zeros (n i : Nat) : readBit (zeros n) i = false := by
  simp only [readBit, zeros, List.getD_eq_getElem?_getD, List.getElem?_replicate]
  split <;> rfl

/-- Writing one bit keeps the length of the vector. -/
@[simp] theorem writeBit_length (v : Bits) (i : Nat) (b : Bool) : (writeBit v i b).length = v.length := by
  simp [writeBit]

/-- A written bit reads as written. -/
theorem readBit_writeBit_same {v : Bits} {i : Nat} (h : i < v.length) (b : Bool) :
    readBit (writeBit v i b) i = b := by
  simp [readBit, writeBit, h]

/-- Every other bit reads as before. -/
theorem readBit_writeBit_other (v : Bits) {i j : Nat} (h : j ≠ i) (b : Bool) :
    readBit (writeBit v i b) j = readBit v j := by
  simp [readBit, writeBit, List.getElem?_set_ne h.symm]

/-- `readBit` within the vector is the list's element. -/
theorem readBit_eq_getElem {v : Bits} {i : Nat} (h : i < v.length) : readBit v i = v[i] := by
  simp [readBit, h]

/-- Two vectors of one length that agree at every index are equal. -/
theorem vec_ext {v w : Bits} (hl : v.length = w.length) (h : ∀ i < v.length, readBit v i = readBit w i) : v = w := by
  refine List.ext_getElem hl fun i hv hw => ?_
  rw [← readBit_eq_getElem hv, ← readBit_eq_getElem hw]
  exact h i hv

theorem inRange_iff (s : State) (i : Nat) : s.inRange i = true ↔ i < s.width := by simp [State.inRange]

theorem bitData_eq (b : Bool) : bitData b = if b then 1#16 else 0#16 := by cases b <;> rfl

/-! ### Queries -/

theorem indexedQuery_inRange {s : State} {i : Nat} (h : i < s.width) (b : Bool) :
    s.indexedQuery i b = s.respond ⟨.ok, bitData b, zeros s.width⟩ := by
  simp [State.indexedQuery, (inRange_iff s i).2 h]

theorem indexedQuery_outOfRange {s : State} {i : Nat} (h : s.width ≤ i) (b : Bool) :
    s.indexedQuery i b = s.respond ⟨.indexRange, 0#16, zeros s.width⟩ := by
  simp [State.indexedQuery, State.inRange, Nat.not_lt.2 h, statusOf]

/-- Whatever an indexed query answers, it only responds. -/
theorem indexedQuery_responds (s : State) (i : Nat) (b : Bool) : ∃ r, s.indexedQuery i b = s.respond r := by
  rcases Nat.lt_or_ge i s.width with h | h
  · exact ⟨_, indexedQuery_inRange h b⟩
  · exact ⟨_, indexedQuery_outOfRange h b⟩

/-! ### Input lines and the host -/

@[simp] theorem Line.level_lowered (l : Line) : l.lowered.level = false := rfl

@[simp] theorem Line.pop_rest (l : Line) : l.pop.rest = l.rest := rfl

/-- The level of a line is one of those listed, or the one it keeps. -/
theorem Line.level_cases (l : Line) : l.level ∈ l.soon ∨ (l.soon = [] ∧ l.level = l.rest) := by
  obtain ⟨soon, rest⟩ := l
  cases soon <;> simp [Line.level]

@[simp] theorem waiting_some (w : Word) (cs : List (Option Word)) : waiting (some w :: cs) = some w :: cs := rfl

/-- The host presents a word exactly where it stands at the head of what it has to present. -/
theorem presented_eq_some {s : State} {w : Word} : s.presented = some w ↔ ∃ cs, s.cmds = some w :: cs := by
  unfold State.presented
  cases s.cmds with
  | nil => simp
  | cons c cs => cases c <;> simp

/-! ### The sequencer -/

/-- A busy step with a hold running is a step of that hold. -/
theorem sequencerStep_holding {s : State} (h : s.hold ≠ 0#16) (tick : Bool) :
    s.sequencerStep tick = s.passTime tick := by simp [State.sequencerStep, h]

/-- A busy step with no hold running is the sequencer's, whatever the level of `tick`. -/
theorem sequencerStep_free {s : State} (h : s.hold = 0#16) (tick : Bool) :
    s.sequencerStep tick = seqPhase s := by simp [State.sequencerStep, h]

/-- Everything the part of `CK_LO` after the hold can do. -/
theorem seqBitDone_cases (s : State) :
    (s.idx = 0 ∧ seqBitDone s = (s.respond ⟨.ok, 0#16, s.cur⟩).goto .idle) ∨
    (s.idx ≠ 0 ∧ seqBitDone s = s.countDown.goto .sample) := by
  unfold seqBitDone
  split
  · exact .inl ⟨‹_›, rfl⟩
  · exact .inr ⟨‹_›, rfl⟩

/-- Everything the sequencer's step can do, phase by phase. -/
theorem seqPhase_cases (s : State) :
    (s.phase = .idle ∧ seqPhase s = s) ∨
    (s.phase = .ceHi ∧ seqPhase s = (s.out .ce true).goto .ldLo) ∨
    (s.phase = .ldLo ∧ seqPhase s = (s.out .load false).wait.goto .ldHi) ∨
    (s.phase = .ldHi ∧ seqPhase s = (s.out .load true).wait.goto .ceLo) ∨
    (s.phase = .ceLo ∧ seqPhase s = (s.out .ce false).goto .sample) ∨
    (s.phase = .sample ∧ seqPhase s = s.takeSample.goto .ckHi) ∨
    (s.phase = .ckHi ∧ seqPhase s = (s.out .clk true).wait.goto .ckLo) ∨
    (s.phase = .ckLo ∧ s.oClk = true ∧ seqPhase s = (s.out .clk false).wait) ∨
    (s.phase = .ckLo ∧ s.oClk = false ∧ s.idx = 0 ∧ seqPhase s = (s.respond ⟨.ok, 0#16, s.cur⟩).goto .idle) ∨
    (s.phase = .ckLo ∧ s.oClk = false ∧ s.idx ≠ 0 ∧ seqPhase s = s.countDown.goto .sample) := by
  unfold seqPhase
  split <;> rename_i hp
  case h_8 =>
    unfold seqCkLo
    split <;> rename_i hc
    · simp [hp, hc]
    · rcases seqBitDone_cases s with ⟨hi, h⟩ | ⟨hi, h⟩ <;> simp [hp, hc, hi, h]
  all_goals simp [hp, seqCeHi, seqLdLo, seqLdHi, seqCeLo, seqSample, seqCkHi]

/-- No step of the sequencer touches the chip count, `pw`, `prev` or the ports the outside drives but for the samples. -/
theorem seqPhase_keeps (s : State) :
    (seqPhase s).chipCount = s.chipCount ∧ (seqPhase s).pw = s.pw ∧ (seqPhase s).prev = s.prev ∧
    (seqPhase s).rst = s.rst ∧ (seqPhase s).tick = s.tick ∧ (seqPhase s).cmds = s.cmds := by
  rcases seqPhase_cases s with ⟨_, h⟩ | ⟨_, h⟩ | ⟨_, h⟩ | ⟨_, h⟩ | ⟨_, h⟩ | ⟨_, h⟩ | ⟨_, h⟩ | ⟨_, _, h⟩ | ⟨_, _, _, h⟩ |
    ⟨_, _, _, h⟩ <;> simp [h]

end Sys2Proof.Machine
end

