-- ==== Sys2Proof/Laws/PerInstr.lean ====
section
/-! SUPPORT. What is said of every command as syntax: the word of a command carries, in `cmd[19:16]`, the opcode that
the opcode map gives its row, so a match over the map's mask selects that row (30_encoding.md R53). -/

namespace Sys2Proof.Laws

open Sys2Proof

/-- The word of `i` has the opcode of `i` under the map's mask `0xF0000`. -/
def OpcodeField.Statement (i : Instr) : Prop :=
  encode i &&& 0xF0000#20 = i.opcode ++ 0x0000#16

/-- The mask of the opcode map keeps the opcode and clears the operand. -/
theorem append_mask (op : BitVec 4) (arg : Arg) : (op ++ arg : Word) &&& 0xF0000#20 = op ++ 0x0000#16 := by
  have : (0xF0000#20 : Word) = (0xF#4 ++ 0x0000#16 : BitVec 20) := by decide
  rw [this, BitVec.and_append]
  congr 1
  · exact BitVec.and_allOnes
  · exact BitVec.and_zero

theorem OpcodeField.poll : Statement .poll := append_mask _ _
theorem OpcodeField.state (i : Nat) : Statement (.state i) := append_mask _ _
theorem OpcodeField.last (i : Nat) : Statement (.last i) := append_mask _ _
theorem OpcodeField.changed (i : Nat) : Statement (.changed i) := append_mask _ _
theorem OpcodeField.changedAny : Statement .changedAny := append_mask _ _
theorem OpcodeField.pressed (i : Nat) : Statement (.pressed i) := append_mask _ _
theorem OpcodeField.released (i : Nat) : Statement (.released i) := append_mask _ _
theorem OpcodeField.rawState : Statement .rawState := append_mask _ _
theorem OpcodeField.getPw : Statement .getPw := append_mask _ _
theorem OpcodeField.setPw (v : Arg) : Statement (.setPw v) := append_mask _ _
theorem OpcodeField.reserved0 : Statement .reserved0 := append_mask _ _
theorem OpcodeField.reservedB : Statement .reservedB := append_mask _ _
theorem OpcodeField.reservedC : Statement .reservedC := append_mask _ _
theorem OpcodeField.reservedD : Statement .reservedD := append_mask _ _
theorem OpcodeField.reservedE : Statement .reservedE := append_mask _ _
theorem OpcodeField.reservedF : Statement .reservedF := append_mask _ _

end Sys2Proof.Laws
end

