-- ==== Sys2Proof/Laws/Step.lean ====
section
/-! SUPPORT. Everything a step and an accepted command can do, each said once. -/

namespace Sys2Proof.Machine

open Sys2Proof

/-- Everything one step can do: reset, nothing, the presented command, or a step of the poll in flight. -/
theorem step_cases {s t : State} (h : step s = .next t) :
    (s.rst.level = true ∧ t = s.clock.resetBlock) ∨
    (s.rst.level = false ∧ s.phase = .idle ∧ s.presented = none ∧ t = s.clock) ∨
    (∃ w, s.rst.level = false ∧ s.phase = .idle ∧ s.presented = some w ∧ exec (decode w) s.accept = .next t) ∨
    (s.rst.level = false ∧ s.phase ≠ .idle ∧ t = s.clock.sequencerStep s.tick.level) := by
  unfold step State.cmdReady at h
  cases hr : s.rst.level with
  | true =>
    simp only [hr, if_true] at h
    cases h
    exact .inl ⟨rfl, rfl⟩
  | false =>
    simp only [hr, Bool.false_eq_true, if_false, decide_eq_true_eq] at h
    by_cases hp : s.phase = .idle
    · rw [if_pos hp] at h
      cases hw : s.presented with
      | none =>
        rw [hw] at h
        cases h
        exact .inr (.inl ⟨rfl, hp, rfl, rfl⟩)
      | some w =>
        rw [hw] at h
        exact .inr (.inr (.inl ⟨w, rfl, hp, rfl, h⟩))
    · rw [if_neg hp] at h
      cases h
      exact .inr (.inr (.inr ⟨rfl, hp, rfl⟩))

/-- Everything a command can do: `POLL` starts the sequencer, `SET_PW` writes `pw` and responds, any other command only
responds. -/
theorem exec_cases {i : Instr} {s t : State} (h : exec i s = .next t) :
    (i = .poll ∧ t = s.latchFrame.goto .ceHi) ∨
    (∃ v, i = .setPw v ∧ t = (s.setPw v).respond ⟨.ok, 0#16, zeros s.width⟩) ∨
    (i ≠ .poll ∧ (∀ v, i ≠ .setPw v) ∧ ∃ r, t = s.respond r) := by
  cases i <;> simp only [exec] at h
  case poll => cases h; exact .inl ⟨rfl, rfl⟩
  case setPw v => cases h; exact .inr (.inl ⟨v, rfl, rfl⟩)
  case state | last | changed | pressed | released =>
    cases h
    exact .inr (.inr ⟨nofun, nofun, indexedQuery_responds _ _ _⟩)
  all_goals
    cases h
    exact .inr (.inr ⟨nofun, nofun, _, rfl⟩)

/-- A busy step in which no hold runs is the sequencer's. -/
theorem step_sequencer {s : State} (hr : s.rst.level = false) (hp : s.phase ≠ .idle) (hh : s.hold = 0#16) :
    step s = .next (seqPhase s.clock) := by
  simp [step, hr, State.cmdReady, hp, State.sequencerStep, hh]

/-- A busy step in which a hold runs is a step of that hold. -/
theorem step_holding {s : State} (hr : s.rst.level = false) (hp : s.phase ≠ .idle) (hh : s.hold ≠ 0#16) :
    step s = .next (s.clock.passTime s.tick.level) := by
  simp [step, hr, State.cmdReady, hp, State.sequencerStep, hh]

end Sys2Proof.Machine
end

