-- ==== Sys2Proof/Laws/Safety.lean ====
section
/-! SUPPORT. The small lemmas of the terms that claims are written in: frames, input lines, runs, the trace of a poll. -/

namespace Sys2Proof.Machine

open Sys2Proof

/-! ### Frames -/

/-- Responding changes the response ports and the record of responses, and nothing else. -/
theorem onlyResponds_respond (s : State) (r : Response) : OnlyResponds s (s.respond r) r := by
  simp [OnlyResponds, SameBlock, SameVectors, SameSequencer, SamePins, SameOutside, Responds]

theorem answers_iff {i : Instr} {s t : State} {r : Response} (h : exec i s = .next t) :
    Answers i s r ↔ t.rsp = some r := by
  unfold Answers
  rw [h]
  exact ⟨fun ⟨_, e, hr⟩ => by cases e; exact hr, fun hr => ⟨t, rfl, hr⟩⟩

theorem boolData_eq (b : Bool) : bitData b = boolData b := by cases b <;> rfl

/-! ### Input lines -/

theorem Line.AlwaysLow.level {l : Line} (h : l.AlwaysLow) : l.level = false := by
  rcases l.level_cases with hm | ⟨_, hl⟩
  · exact h.1 _ hm
  · exact hl.trans h.2

theorem Line.AlwaysLow.pop {l : Line} (h : l.AlwaysLow) : l.pop.AlwaysLow :=
  ⟨fun b hb => h.1 b (List.mem_of_mem_tail hb), h.2⟩

/-! ### Runs -/

theorem reaches_zero (s t : State) : Reaches s 0 t ↔ t = s := Iff.rfl

/-- A run is its first step and the run from there. -/
theorem reaches_succ {s u : State} (h : step s = .next u) (n : Nat) (t : State) :
    Reaches s (n + 1) t ↔ Reaches u n t :=
  ⟨fun ⟨_, hv, ht⟩ => by rw [h] at hv; cases hv; exact ht, fun ht => ⟨u, h, ht⟩⟩

/-- A run in which no poll completes is a run. -/
theorem ReachesBeforePollCompletes.reaches {s t : State} {n : Nat} (h : ReachesBeforePollCompletes s n t) :
    Reaches s n t := by
  induction n generalizing s with
  | zero => exact h
  | succ n ih =>
    obtain ⟨u, hu, -, h⟩ := h
    exact ⟨u, hu, ih h⟩

/-- Runs put end to end. -/
theorem Reaches.trans {s t u : State} {m n : Nat} (h : Reaches s m t) (h' : Reaches t n u) : Reaches s (m + n) u := by
  induction m generalizing s with
  | zero =>
    cases h
    rwa [Nat.zero_add]
  | succ m ih =>
    obtain ⟨v, hv, hm⟩ := h
    rw [Nat.succ_add]
    exact ⟨v, hv, ih hm⟩

/-- A run of any machine begins with its first step. -/
theorem run_next {M : Host.Core} {s u : M.State} (h : M.step s = .next u) (n : Nat) : M.run (n + 1) s = M.run n u := by
  simp only [Host.Core.run, h]

/-- A run in these terms is a run of the machine behind the host's interface. -/
theorem Reaches.run {s t : State} {n : Nat} (h : Reaches s n t) : Host.Core.run Sys2Proof.core n s = .next t := by
  induction n generalizing s with
  | zero => cases h; rfl
  | succ n ih =>
    obtain ⟨u, hu, ht⟩ := h
    exact (run_next (M := Sys2Proof.core) hu n).trans (ih ht)

/-! ### The environment's answers and the trace of a poll -/

@[simp] theorem answersFrom_length (data : List Bool) (draws n : Nat) : (answersFrom data draws n).length = n := by
  induction n generalizing data draws with
  | zero => rfl
  | succ n ih => simp [answersFrom, ih]

theorem samples_length (s : State) : s.samples.length = s.width := answersFrom_length _ _ _

theorem decodeSamples_length (S : Bits) : (decodeSamples S).length = S.length := List.length_reverse

end Sys2Proof.Machine
end

