-- ==== Sys2Proof/Laws/Poll.lean ====
section
/-! SUPPORT. Steps of a busy block up to what the outside drives: the sequencer's step, and a hold that runs out. With
`rst` low and the time reference live these are all the steps of a poll. -/

namespace Sys2Proof.Machine

open Sys2Proof

/-- A state without what the outside drives from step to step, and without the response ports. -/
def State.inside (s : State) : State :=
  { s with rst := ⟨[], false⟩, tick := ⟨[], true⟩, cmds := [], rsp := none }

@[simp] theorem inside_inside (s : State) : s.inside.inside = s.inside := rfl

/-- The lines let a poll go on: no reset, a live time reference. -/
abbrev State.Undisturbed (s : State) : Prop := s.rst.AlwaysLow ∧ s.tick.Live

/-- What the sequencer's step does inside does not depend on what the outside drives. -/
theorem seqPhase_inside (s : State) :
    (seqPhase s).inside = (seqPhase s.inside).inside ∧
    (s.phase ≠ .idle → s.rsp = none → (seqPhase s).rsp = (seqPhase s.inside).rsp) := by
  unfold seqPhase seqCkLo seqBitDone
  show _ ∧ _
  split <;> rename_i hp
  case h_8 =>
    have e : s.inside.phase = .ckLo := hp
    simp only [e]
    show (ite (s.oClk = true) _ _ : State).inside = (ite (s.oClk = true) _ _ : State).inside ∧
      (_ → _ → (ite (s.oClk = true) _ _ : State).rsp = (ite (s.oClk = true) _ _ : State).rsp)
    split
    · exact ⟨rfl, fun _ h => h⟩
    · show (ite (s.idx = 0) _ _ : State).inside = (ite (s.idx = 0) _ _ : State).inside ∧
        (_ → _ → (ite (s.idx = 0) _ _ : State).rsp = (ite (s.idx = 0) _ _ : State).rsp)
      split
      · exact ⟨rfl, fun _ _ => rfl⟩
      · exact ⟨rfl, fun _ h => h⟩
  all_goals
    simp only [show s.inside.phase = _ from hp]
    first | exact ⟨rfl, fun h => absurd hp h⟩ | exact ⟨rfl, fun _ h => h⟩

/-- One step of the sequencer, seen from inside. -/
theorem step_inside {s : State} (h : s.Undisturbed) (hp : s.phase ≠ .idle) (hh : s.hold = 0#16) :
    ∃ t, step s = .next t ∧ t.Undisturbed ∧ t.inside = (seqPhase s.inside).inside ∧ t.rsp = (seqPhase s.inside).rsp := by
  have keep := seqPhase_keeps s.clock
  have hin := seqPhase_inside s.clock
  refine ⟨_, step_sequencer h.1.level hp hh, ⟨?_, ?_⟩, hin.1, hin.2 hp rfl⟩
  · rw [keep.2.2.2.1]
    exact h.1.pop
  · rw [keep.2.2.2.2.1]
    exact h.2

/-- A hold runs out, and nothing else changes inside. -/
theorem hold_runs_out {s : State} (h : s.Undisturbed) (hp : s.phase ≠ .idle) :
    ∃ n t, Reaches s n t ∧ t.Undisturbed ∧ t.inside = { s.inside with hold := 0#16 } := by
  induction hm : s.hold.toNat + s.tick.soon.length using Nat.strong_induction_on generalizing s with
  | _ m ih =>
    by_cases hh : s.hold = 0#16
    · exact ⟨0, s, rfl, h, by simp [State.inside, hh]⟩
    · have hpos : s.hold.toNat ≠ 0 := fun e => hh (BitVec.eq_of_toNat_eq (by simpa using e))
      have hlt := s.hold.isLt
      have hdec : (s.clock.passTime s.tick.level).hold.toNat + (s.clock.passTime s.tick.level).tick.soon.length < m := by
        subst hm
        simp only [State.passTime_hold, State.passTime_tick, State.clock_tick, State.clock_hold, Line.pop,
          List.length_tail]
        rcases hs : s.tick.soon with _ | ⟨b, bs⟩
        · have : s.tick.level = true := by simpa [Line.level, hs] using h.2
          simp only [this, if_true, BitVec.toNat_sub, List.length_nil]
          simp
          omega
        · split
          · simp only [BitVec.toNat_sub, List.length_cons]
            simp
            omega
          · simp
      obtain ⟨n, t, hr, ht, hi⟩ := ih _ hdec (s := s.clock.passTime s.tick.level) ⟨h.1.pop, h.2⟩ hp rfl
      exact ⟨n + 1, t, ⟨_, step_holding h.1.level hp hh, hr⟩, ht, hi⟩

/-- One step of the sequencer and the hold after it, seen from inside. -/
theorem step_and_hold {s u : State} (hu : s.inside = u) (h : s.Undisturbed) (hp : u.phase ≠ .idle)
    (hh : u.hold = 0#16) (hp' : (seqPhase u).phase ≠ .idle) :
    ∃ n t, Reaches s n t ∧ t.Undisturbed ∧ t.inside = { (seqPhase u).inside with hold := 0#16 } := by
  subst hu
  obtain ⟨v, hv, hvu, hvi, _⟩ := step_inside h hp hh
  have hvp : v.phase ≠ .idle := by
    have : v.inside.phase ≠ .idle := by rw [hvi]; exact hp'
    exact this
  obtain ⟨n, t, hr, ht, hi⟩ := hold_runs_out hvu hvp
  exact ⟨n + 1, t, ⟨v, hv, hr⟩, ht, by rw [hi, hvi]⟩

/-- Storing a sample into the highest position of the part not yet filled. -/
theorem writeBit_fill (k : Nat) (v : Bits) (b : Bool) : writeBit (zeros (k + 1) ++ v) k b = zeros k ++ b :: v := by
  simp [writeBit, zeros, List.replicate_succ', List.append_assoc]

/-- The answers of the environment, one sample further. -/
theorem answersFrom_succ (data : List Bool) (draws n : Nat) :
    answersFrom data draws (n + 1) =
      data.headD (Config.freeLevel draws) :: answersFrom data.tail (draws + 1) n := rfl

end Sys2Proof.Machine
end

