-- ==== Sys2Proof/Tests/Slice0.lean ====
section
/-! SUPPORT. The model's own tests: the ill-formed terms that WellFormed refuses, words written out from the opcode map,
single steps with results from spec/95_test_vectors.md, and a witness for the hypotheses of every statement. -/

namespace Sys2Proof.Tests

open Sys2Proof Sys2Proof.Machine

/-! ### WellFormed refuses ill-formed terms -/

theorem test_wf_refuses_state : (Instr.state 65536).wf = false := by decide
theorem test_wf_refuses_last : (Instr.last 65536).wf = false := by decide
theorem test_wf_refuses_changed : (Instr.changed 65536).wf = false := by decide
theorem test_wf_refuses_pressed : (Instr.pressed 65536).wf = false := by decide
theorem test_wf_refuses_released : (Instr.released 65536).wf = false := by decide
theorem test_wf_accepts_state : (Instr.state 65535).wf = true := by decide
theorem test_chipCount_refuses_zero : chipCountOk 0 = false := by decide
theorem test_chipCount_refuses_8192 : chipCountOk 8192 = false := by decide
theorem test_chipCount_accepts_bounds : chipCountOk 1 = true ∧ chipCountOk 8191 = true := by decide

/-! ### Decoding, T1: each word is written out as `op` (4 bits) and `arg` (16 bits) from 30_encoding.md R53 -/

theorem test_decode_poll : decode 0b00010000000000000000#20 = .poll := by decide
theorem test_decode_poll_arg_ignored : decode 0b00011111111111111111#20 = .poll := by decide
theorem test_decode_state : decode 0b00100000000000000111#20 = .state 7 := by decide
theorem test_decode_state_all_operand_bits : decode 0b00101111111111111111#20 = .state 65535 := by decide
theorem test_decode_last : decode 0b00110000000000000100#20 = .last 4 := by decide
theorem test_decode_changed : decode 0b01000000000000000100#20 = .changed 4 := by decide
theorem test_decode_changedAny : decode 0b01011010101111001101#20 = .changedAny := by decide
theorem test_decode_pressed : decode 0b01100000000000000100#20 = .pressed 4 := by decide
theorem test_decode_released : decode 0b01110000000000000100#20 = .released 4 := by decide
theorem test_decode_rawState : decode 0b10000000000000000000#20 = .rawState := by decide
theorem test_decode_getPw : decode 0b10010000000000000000#20 = .getPw := by decide
theorem test_decode_setPw : decode 0b10100000000000010100#20 = .setPw 20#16 := by decide
theorem test_decode_reserved0 : decode 0b00001111111111111111#20 = .reserved0 := by decide
theorem test_decode_reservedB : decode 0b10110000000000000000#20 = .reservedB := by decide
theorem test_decode_reservedC : decode 0b11000000000000000001#20 = .reservedC := by decide
theorem test_decode_reservedD : decode 0b11010000000000000001#20 = .reservedD := by decide
theorem test_decode_reservedE : decode 0b11100000000000000001#20 = .reservedE := by decide
theorem test_decode_reservedF : decode 0b11110001001000110100#20 = .reservedF := by decide
theorem test_encode_state : encode (.state 4) = 0x20004#20 := by decide
theorem test_encode_setPw : encode (.setPw 65535#16) = 0xAFFFF#20 := by decide
theorem test_tableWord_wider_than_port : decodeTableWord 24 0x100000 = none := by decide
theorem test_tableWord_in_three_bytes : decodeTableWord 24 0x6000F = some (.pressed 15) := by decide

/-! ### Single steps -/

/-- An idle two-chip block with the vectors `cur` and `prev`, given as numbers. -/
def two (cur prev : Nat) : State :=
  { State.resetWith 2 with cur := bitsOfNat 16 cur, prev := bitsOfNat 16 prev }

/-- The same for one chip. -/
def one (cur prev : Nat) : State :=
  { State.resetWith 1 with cur := bitsOfNat 8 cur, prev := bitsOfNat 8 prev }

/-- A state in which the host presents `w`. -/
def presenting (w : Word) (s : State) : State := { s with cmds := [some w] }

/-- A one-chip block inside a poll, at the phase `p` and index `i`, with clock line `clk` and clock-enable line `ce`. -/
def busy (p : Phase) (i : Nat) (clk ce : Bool) : State :=
  { one 0 0x12 with phase := p, idx := i, oClk := clk, oCe := ce }

/-- The response of an outcome: status code, data, vector as a number. -/
def answer (o : Host.Outcome State Fault Refusal) : Option (BitVec 2 × Arg × Nat) :=
  (nextOf o).bind fun t => t.rsp.map fun r => (r.status.code, r.data, bitsToNat r.vec)

-- V8, R76
theorem test_state_4 : answer (exec (.state 4) (two 0xB0F0 0)) = some (0, 1, 0) := by decide
theorem test_state_16_traps : answer (exec (.state 16) (two 0xB0F0 0)) = some (1, 0, 0) := by decide
-- T5
theorem test_last_2 : answer (exec (.last 2) (one 0x0A 0x0C)) = some (0, 1, 0) := by decide
theorem test_last_1 : answer (exec (.last 1) (one 0x0A 0x0C)) = some (0, 0, 0) := by decide
theorem test_changed_2 : answer (exec (.changed 2) (one 0x0A 0x0C)) = some (0, 1, 0) := by decide
theorem test_changed_3 : answer (exec (.changed 3) (one 0x0A 0x0C)) = some (0, 0, 0) := by decide
theorem test_changedAny : answer (exec .changedAny (one 0x0A 0x0C)) = some (0, 1, 0) := by decide
theorem test_changedAny_equal : answer (exec .changedAny (one 0xFF 0xFF)) = some (0, 0, 0) := by decide
theorem test_pressed_1 : answer (exec (.pressed 1) (one 0x0A 0x0C)) = some (0, 1, 0) := by decide
theorem test_pressed_2 : answer (exec (.pressed 2) (one 0x0A 0x0C)) = some (0, 0, 0) := by decide
theorem test_released_2 : answer (exec (.released 2) (one 0x0A 0x0C)) = some (0, 1, 0) := by decide
theorem test_released_8_traps : answer (exec (.released 8) (one 0x0A 0x0C)) = some (1, 0, 0) := by decide
-- R82
theorem test_rawState : answer (exec .rawState (two 0xB0F0 0x0010)) = some (0, 0, 0xB0F0) := by decide
-- T6: high operand bits are not dropped; the highest index of the largest block is in range and WIDTH itself is not
theorem test_state_256_traps : answer (exec (.state 256) (one 0xFF 0)) = some (1, 0, 0) := by decide
theorem test_largest_block_range :
    (State.resetWith 8191).inRange 65527 = true ∧ (State.resetWith 8191).inRange 65528 = false := by decide
-- T7
theorem test_getPw_after_reset : answer (exec .getPw (one 0 0)) = some (0, 5, 0) := by decide
theorem test_setPw_20 : (nextOf (exec (.setPw 20#16) (one 0 0))).map (·.pw) = some 20#16 := by decide
theorem test_setPw_answers_zero : answer (exec (.setPw 65535#16) (one 0 0)) = some (0, 0, 0) := by decide
-- T8
theorem test_reserved0 : answer (exec .reserved0 (one 0xFF 0)) = some (2, 0, 0) := by decide
theorem test_reservedB : answer (exec .reservedB (one 0xFF 0)) = some (2, 0, 0) := by decide
theorem test_reservedC : answer (exec .reservedC (one 0xFF 0)) = some (2, 0, 0) := by decide
theorem test_reservedD : answer (exec .reservedD (one 0xFF 0)) = some (2, 0, 0) := by decide
theorem test_reservedE : answer (exec .reservedE (one 0xFF 0)) = some (2, 0, 0) := by decide
theorem test_reservedF : answer (exec .reservedF (one 0xFF 0)) = some (2, 0, 0) := by decide
-- P4 item 1
theorem test_poll_accepted :
    (nextOf (step (presenting 0x10000#20 (one 0x03 0x12)))).map
      (fun t => (bitsToNat t.prev, bitsToNat t.cur, t.idx, t.phase, t.cmdReady, t.rspValid)) =
      some (0x03, 0x00, 7, .ceHi, false, false) := by decide
-- T4, events 7 and 17: `s_0` to index 7, `s_2` to index 5
theorem test_sample_0 :
    (nextOf (step { busy .sample 7 false false with data := [true] })).map (fun t => (bitsToNat t.cur, t.trace)) =
      some (0x80, [.read true]) := by decide
theorem test_sample_2 :
    (nextOf (step { busy .sample 5 false false with cur := bitsOfNat 8 0x80, data := [true] })).map
      (fun t => bitsToNat t.cur) = some 0xA0 := by decide
-- T4, events 2 and 3
theorem test_load_low :
    (nextOf (step (busy .ldLo 7 false true))).map (fun t => (t.oLoad, t.trace, t.hold)) =
      some (false, [.out .load false, .wait 5#16], 5#16) := by decide
-- R68: the end of a poll
theorem test_poll_ends :
    answer (step { busy .ckLo 0 false false with cur := bitsOfNat 8 0xB0 }) = some (0, 0, 0xB0) := by decide
-- T8, last row: a word waits while the block is busy
theorem test_word_waits :
    (nextOf (step (presenting 0x20007#20 (busy .ckHi 3 false false)))).map (fun t => (t.cmds, t.rspValid)) =
      some ([some 0x20007#20], false) := by decide
-- T9: reset in the middle of a poll, and with a POLL presented
def resetMidPoll : State :=
  { presenting 0x10000#20 (busy .ckLo 5 true false) with rst := ⟨[true], false⟩, pw := 20#16 }
theorem test_reset_mid_poll_registers :
    (nextOf (step resetMidPoll)).map (fun t => (bitsToNat t.prev, t.pw, t.phase, t.idx)) =
      some (0, 5#16, .idle, 0) := by decide
theorem test_reset_mid_poll_ports :
    (nextOf (step resetMidPoll)).map (fun t => (t.oClk, t.oCe, t.cmds, t.rspValid)) =
      some (false, true, [some 0x10000#20], false) := by decide
-- 60_exceptions.md R97 (c): a reserved opcode with a large operand
theorem test_reserved_before_range : answer (step (presenting 0xFFFFF#20 (one 0 0))) = some (2, 0, 0) := by decide
theorem test_placed_word :
    answer (step (State.reset.withFetchWord 24 0x20010)) = some (1, 0, 0) := by decide
-- T2: the decode function
theorem test_decodeSamples :
    bitsToNat (decodeSamples [true, false, true, true, false, false, false, false,
      true, true, true, true, false, false, false, false]) = 0xB0F0 := by decide

/-! ### Witnesses: for every statement with hypotheses, a state and operands that meet all of them -/

theorem witness_MatchAndMaskSelectTheCommand :
    0x1ABCD#20 &&& 0xF0000#20 = 0x10000#20 ∧ 0x2FFFF#20 &&& 0xF0000#20 = 0x20000#20 ∧
    0x30000#20 &&& 0xF0000#20 = 0x30000#20 ∧ 0x40001#20 &&& 0xF0000#20 = 0x40000#20 ∧
    0x5FFFF#20 &&& 0xF0000#20 = 0x50000#20 ∧ 0x60000#20 &&& 0xF0000#20 = 0x60000#20 ∧
    0x7FFFF#20 &&& 0xF0000#20 = 0x70000#20 ∧ 0x80001#20 &&& 0xF0000#20 = 0x80000#20 ∧
    0x9FFFF#20 &&& 0xF0000#20 = 0x90000#20 ∧ 0xAFFFF#20 &&& 0xF0000#20 = 0xA0000#20 ∧
    0x0FFFF#20 &&& 0xF0000#20 = 0x00000#20 ∧ 0xB0000#20 &&& 0xF0000#20 = 0xB0000#20 ∧
    0xCFFFF#20 &&& 0xF0000#20 = 0xC0000#20 ∧ 0xD0000#20 &&& 0xF0000#20 = 0xD0000#20 ∧
    0xEFFFF#20 &&& 0xF0000#20 = 0xE0000#20 ∧ 0xFFFFF#20 &&& 0xF0000#20 = 0xF0000#20 :=
  ⟨rfl, rfl, rfl, rfl, rfl, rfl, rfl, rfl, rfl, rfl, rfl, rfl, rfl, rfl, rfl, rfl⟩

theorem witness_DecodingUndoesEncoding : (Instr.state 65535).wf = true ∧ 20 ≤ 24 := by decide

theorem witness_PlacedWordRunsNext : 0xFFFFF < 2 ^ 20 ∧ 0x2000F < 2 ^ 24 := by decide

theorem witness_IdleStepRunsThePresentedCommand :
    let s := presenting 0x20000#20 (one 1 0)
    s.rst.level = false ∧ s.phase = .idle ∧ s.cmds = some 0x20000#20 :: [] := by decide

theorem witness_CommandsAreAcceptedOnlyInIdle :
    (let s := presenting 0x10000#20 (one 1 0)
     s.rst.level = false ∧ s.cmdReady = true ∧ s.cmds = some 0x10000#20 :: []) ∧
    (let s := presenting 0x20007#20 (busy .ckHi 3 false false)
     s.rst.level = false ∧ s.cmdReady = false ∧ s.cmds = some 0x20007#20 :: []) ∧
    (let s := { one 1 0 with cmds := [none, some 0x10000#20] }
     s.rst.level = false ∧ s.cmdReady = true ∧ s.presented = none) := by decide

theorem witness_ResetStateIsTheSpecs :
    (∃ s, s = State.reset) ∧ ∃ s, ∃ n, s = State.resetWith n ∧ n = 8191 := ⟨⟨_, rfl⟩, _, _, rfl, rfl⟩

theorem witness_OnlyLegalChipCountsAreBuilt : 8191 < 8192 ∧ 1 ≤ 1 ∧ 1 ≤ 8191 ∧ 8191 ≤ 8191 := by decide

theorem witness_ResetWinsInEveryState :
    { presenting 0x10000#20 (busy .ckLo 5 true false) with rst := ⟨[true], false⟩ }.rst.level = true := by decide

/-- A state that a step with `rst` high leaves, a run from reset through `SET_PW`, and one through a `POLL` that reset
cuts short; at the ends the lowest and the highest valid index and `WIDTH`. -/
theorem witness_BeforeTheFirstPollEverythingIsZero :
    (resetMidPoll.rst.level = true ∧ ∃ s, step resetMidPoll = .next s ∧ s.phase = .idle) ∧
    (let s := presenting 0xA0014#20 (one 0 0)
     s.phase = .idle ∧ s.cur = List.replicate s.width false ∧ s.prev = List.replicate s.width false ∧
      ∃ t, ReachesBeforePollCompletes s 1 t ∧ t.phase = .idle ∧ 0 < t.width ∧ 7 < t.width ∧ t.width ≤ 8) ∧
    (let s := { presenting 0x10000#20 (one 0 0) with rst := ⟨[false, true], false⟩ }
     ∃ t, ReachesBeforePollCompletes s 2 t ∧ t.phase = .idle) :=
  ⟨⟨rfl, _, rfl, rfl⟩,
    ⟨rfl, rfl, rfl, _, ⟨_, rfl, by decide, rfl⟩, rfl, by decide, by decide, by decide⟩,
    ⟨_, ⟨_, rfl, by decide, _, rfl, by decide, rfl⟩, rfl⟩⟩

/-- For the five indexed queries: the lowest and the highest valid index, `WIDTH`, and the largest operand. -/
theorem witness_indexed_queries :
    0 < (two 0xB0F0 0).width ∧ 15 < (two 0xB0F0 0).width ∧ (two 0xB0F0 0).width ≤ 16 ∧ (two 0xB0F0 0).width ≤ 65535 := by
  decide

theorem witness_ChangedAnyAnswersWhetherSomeBitDiffers :
    (two 0x8000 0).Inv ∧ (∃ i, i < (two 0x8000 0).width ∧ (two 0x8000 0).cur.getD i false ≠ (two 0x8000 0).prev.getD i false) ∧
    (one 0xFF 0xFF).Inv ∧
      ∀ i, i < (one 0xFF 0xFF).width → (one 0xFF 0xFF).cur.getD i false = (one 0xFF 0xFF).prev.getD i false :=
  ⟨by decide, ⟨15, by decide, by decide⟩, by decide, by decide⟩

theorem witness_IndexOutOfRangeIsTrapped :
    (one 0 0).width ≤ 8 ∧ Instr.released 8 ∈ [Instr.state 8, .last 8, .changed 8, .pressed 8, .released 8] := by decide

theorem witness_QueryLaws :
    (one 0x0A 0x0C).Inv ∧ (one 0x0A 0x0C).prev[0]? = some false ∧ (one 0x0A 0x0C).cur[0]? = some false ∧
    (one 0x0A 0x0C).prev[1]? = some false ∧ (one 0x0A 0x0C).cur[1]? = some true ∧
    (one 0x0A 0x0C).prev[2]? = some true ∧ (one 0x0A 0x0C).cur[2]? = some false ∧
    (one 0x0A 0x0C).prev[3]? = some true ∧ (one 0x0A 0x0C).cur[3]? = some true ∧
    (∃ r, Answers .changedAny (one 0x0A 0x0C) r) ∧
    7 < (one 0x0A 0x0C).width ∧ (∃ r, Answers .rawState (one 0x0A 0x0C) r) ∧ ∃ r, Answers (.state 7) (one 0x0A 0x0C) r :=
  ⟨by decide, by decide, by decide, by decide, by decide, by decide, by decide, by decide, by decide,
    ⟨_, _, rfl, rfl⟩, by decide, ⟨_, _, rfl, rfl⟩, ⟨_, _, rfl, rfl⟩⟩

theorem witness_BetweenPollsQueriesAnswerTheSame :
    ∃ t, (presenting 0xA0014#20 (one 1 0)).phase = .idle ∧ (presenting 0xA0014#20 (one 1 0)).rst.AlwaysLow ∧
      (∀ w, some w ∈ (presenting 0xA0014#20 (one 1 0)).cmds → decode w ≠ .poll) ∧
      Reaches (presenting 0xA0014#20 (one 1 0)) 1 t :=
  ⟨_, rfl, by decide, fun w h => by
    have h : w = 0xA0014#20 := by simpa [presenting] using h
    subst h
    decide, _, rfl, rfl⟩

theorem witness_OnlySetPwOrResetChangesThePulseWidth :
    (∃ t, step (presenting 0xA0014#20 (one 1 0)) = .next t ∧ t.pw ≠ (presenting 0xA0014#20 (one 1 0)).pw) ∧
    ∃ t, step { one 1 0 with rst := ⟨[], true⟩, pw := 20#16 } = .next t ∧ t.pw ≠ 20#16 :=
  ⟨⟨_, rfl, by decide⟩, ⟨_, rfl, by decide⟩⟩

theorem witness_ReservedWordsAreIllegalCommands :
    Instr.reservedF ∈ [Instr.reserved0, .reservedB, .reservedC, .reservedD, .reservedE, .reservedF] := by decide

theorem witness_ClockEnableSteps :
    (busy .ceHi 7 false true).rst.level = false ∧ (busy .ceHi 7 false true).hold = 0#16 ∧
    (busy .ceHi 7 false true).phase = .ceHi ∧ (busy .ceLo 7 false true).phase = .ceLo := by decide

theorem witness_LoadPulseSteps :
    (busy .ldLo 7 false true).rst.level = false ∧ (busy .ldLo 7 false true).hold = 0#16 ∧
    (busy .ldLo 7 false true).phase = .ldLo ∧ (busy .ldHi 7 false true).phase = .ldHi := by decide

/-- At the highest and at the lowest index. -/
theorem witness_SampleStoresOneBit :
    (busy .sample 7 false false).Inv ∧ (busy .sample 0 false false).Inv ∧
    (busy .sample 0 false false).rst.level = false ∧ (busy .sample 0 false false).phase = .sample :=
  ⟨by decide, by decide, rfl, rfl⟩

theorem witness_ClockHighStep :
    (busy .ckHi 0 false false).rst.level = false ∧ (busy .ckHi 0 false false).hold = 0#16 ∧
    (busy .ckHi 0 false false).phase = .ckHi := by decide

theorem witness_ClockLowStep :
    (busy .ckLo 0 true false).rst.level = false ∧ (busy .ckLo 0 true false).hold = 0#16 ∧
    (busy .ckLo 0 true false).phase = .ckLo ∧ (busy .ckLo 0 true false).oClk = true ∧
    (busy .ckLo 1 false false).oClk = false ∧ (busy .ckLo 1 false false).idx ≠ 0 ∧
    (busy .ckLo 0 false false).oClk = false ∧ (busy .ckLo 0 false false).idx = 0 := by decide

theorem witness_HoldOnlyCountsDown :
    let s := { busy .ckLo 0 true false with hold := 1#16 }
    s.rst.level = false ∧ s.phase ≠ .idle ∧ s.hold ≠ 0#16 ∧ s.tick.level = true ∧
    { s with tick := ⟨[false], true⟩ }.tick.level = false := by decide

theorem witness_DeadTimeReferenceKeepsTheBlockBusy :
    let s := { presenting 0x10000#20 (one 1 0) with tick := ⟨[], false⟩ }
    s.Inv ∧ s.phase = .idle ∧ (∃ w, s.presented = some w ∧ decode w = .poll) ∧ s.rst.AlwaysLow ∧ s.tick.AlwaysLow ∧
      s.pw ≠ 0#16 :=
  ⟨by decide, rfl, ⟨_, rfl, by decide⟩, by decide, by decide, by decide⟩

theorem witness_PhaseFollowsTheNextPhaseTable :
    (busy .sample 7 false false).rst.level = false ∧ ∃ t, step (busy .sample 7 false false) = .next t :=
  ⟨by decide, _, rfl⟩

theorem witness_DecodeIsMostSignificantFirst :
    (bitsOfNat 16 0xB0F0).length = Config.width 2 ∧ 0 < (bitsOfNat 16 0xB0F0).length ∧
    15 < (bitsOfNat 16 0xB0F0).length := by decide

/-- Hypotheses of the statements about a poll that goes ahead. -/
theorem witness_PollGoesAhead :
    (presenting 0x10000#20 (one 0x03 0x12)).Inv ∧ (presenting 0x10000#20 (one 0x03 0x12)).PollGoesAhead :=
  ⟨by decide, rfl, ⟨_, rfl, by decide⟩, by decide, rfl⟩

theorem witness_TwoPollsLeaveTheTwoFrames :
    let s := { one 0x03 0x12 with cmds := [some 0x10000#20, some 0x1FFFF#20] }
    s.Inv ∧ s.PollGoesAhead ∧ s.cmds = some 0x10000#20 :: some 0x1FFFF#20 :: [] ∧ decode 0x1FFFF#20 = .poll :=
  ⟨by decide, ⟨rfl, ⟨_, rfl, by decide⟩, by decide, rfl⟩, rfl, by decide⟩

theorem witness_FirstFrameReportsHighInputsAsPressed :
    (presenting 0x10000#20 (one 0 0)).Inv ∧ (presenting 0x10000#20 (one 0 0)).PollGoesAhead ∧
    (presenting 0x10000#20 (one 0 0)).cur = List.replicate (presenting 0x10000#20 (one 0 0)).width false ∧
    0 < (presenting 0x10000#20 (one 0 0)).width ∧ 7 < (presenting 0x10000#20 (one 0 0)).width :=
  ⟨by decide, ⟨rfl, ⟨_, rfl, by decide⟩, by decide, rfl⟩, by decide, by decide, by decide⟩

theorem witness_PollLastsAtLeastItsHolds :
    let s := presenting 0x10000#20 (one 0 0)
    s.Inv ∧ s.phase = .idle ∧ (∃ w, s.presented = some w ∧ decode w = .poll) ∧ s.rst.AlwaysLow ∧
      s.timeUnits 89 < s.pw.toNat * (2 + 2 * s.width) :=
  ⟨by decide, rfl, ⟨_, rfl, by decide⟩, by decide, by decide⟩

theorem witness_PollReadsTheReferenceChain :
    let s := { presenting 0x10000#20 (one 0 0) with data := [true, false, false, false, false, false, false, true] }
    let c : Chain := ⟨bitsOfNat 8 0x55, bitsOfNat 8 0x81, false, true, false, true⟩
    s.Inv ∧ s.PollGoesAhead ∧ c.sr.length = s.width ∧ c.ext.length = s.width ∧ c.load = s.oLoad ∧ c.clk = s.oClk ∧
      c.ce = s.oCe ∧ c.Gives (pollTrace s.pw s.samples) :=
  ⟨by decide, ⟨rfl, ⟨_, rfl, by decide⟩, by decide, rfl⟩, by decide, by decide, rfl, rfl, rfl,
    rfl, rfl, rfl, rfl, rfl, rfl, rfl, rfl, trivial⟩

theorem witness_ResetMeetsTheInvariant : (∃ s, launch 1 = .next s) ∧ ∃ s, launch 8191 = .next s :=
  ⟨⟨_, rfl⟩, ⟨State.resetWith 8191, by rw [launch, show Config.chipCountError 8191 = none by decide]⟩⟩

theorem witness_EveryStepKeepsTheInvariant :
    State.reset.Inv ∧ ∃ t, step State.reset = .next t := ⟨by decide, _, rfl⟩

theorem witness_WidthIsImmutable :
    (one 0 0).Inv ∧ ∃ t, Reaches (one 0 0) 1 t := ⟨by decide, _, _, rfl, rfl⟩

theorem witness_OnlyPollOrResetChangesTheVectors :
    (∃ t, step (presenting 0x10000#20 (one 0x03 0x12)) = .next t ∧ (presenting 0x10000#20 (one 0x03 0x12)).rst.level = false ∧
      t.prev ≠ (one 0x03 0x12).prev ∧ t.cur ≠ (one 0x03 0x12).cur) ∧
    ∃ t, step { busy .sample 7 false false with data := [true] } = .next t ∧ t.cur ≠ (busy .sample 7 false false).cur :=
  ⟨⟨_, rfl, by decide, by decide, by decide⟩, ⟨_, rfl, by decide⟩⟩

theorem witness_PinsChangeOneAtATimeByRecordedEvents :
    ∃ t, step (busy .ckHi 0 false false) = .next t ∧ (busy .ckHi 0 false false).rst.level = false ∧
      t.pinLevel .clk ≠ (busy .ckHi 0 false false).pinLevel .clk :=
  ⟨_, rfl, by decide, by decide⟩

theorem witness_ResponsesComeExactlyWhenDue :
    ∃ t, step (busy .ckLo 0 false false) = .next t ∧ t.rspValid = true := ⟨_, rfl, by decide⟩

theorem witness_FaultResponsesCarryZeros :
    ∃ t r, (presenting 0x20008#20 (one 0xFF 0)).Inv ∧ step (presenting 0x20008#20 (one 0xFF 0)) = .next t ∧
      t.rsp = some r ∧ r.status ≠ .ok :=
  ⟨_, ⟨.indexRange, 0#16, bitsOfNat 8 0⟩, by decide, rfl, rfl, by decide⟩

theorem witness_FinishedRunStaysFinished :
    { one 1 0 with cmds := [none] }.runOver ∧ { one 1 0 with cmds := [none] }.rst.AlwaysLow :=
  ⟨⟨rfl, fun _ h => by simpa using h⟩, by decide⟩

theorem witness_IndexMapNamesChipAndBit :
    (bitsOfNat 16 0x8001).length = (two 0 0).width ∧ 0 < (two 0 0).width ∧ 15 < (two 0 0).width := by decide

end Sys2Proof.Tests
end

