-- ==== Sys2Proof/Proofs/Scope.lean ====
section
/-! PROOFS. The scope of the block (00_scope.md): the chip count is a construction parameter that no step writes, so the
width is fixed. -/

namespace Sys2Proof.Machine

open Sys2Proof

/-! ### What every step keeps, a run keeps -/

/-- The induction over a run, once: a property that every step keeps still holds at the end of the run. -/
theorem Reaches.preserves {P : State → Prop} (hstep : ∀ s t, P s → step s = .next t → P t) {s t : State} {n : Nat}
    (hs : P s) (h : Reaches s n t) : P t := by
  induction n generalizing s with
  | zero => exact (reaches_zero s t).1 h ▸ hs
  | succ n ih =>
    obtain ⟨u, hu, ht⟩ := h
    exact ih (hstep s u hs hu) ht

/-! ### The chip count -/

theorem sequencerStep_chipCount (s : State) (tick : Bool) : (s.sequencerStep tick).chipCount = s.chipCount := by
  by_cases hh : s.hold = 0#16
  · rw [sequencerStep_free hh]
    exact (seqPhase_keeps s).1
  · rw [sequencerStep_holding hh]
    exact State.passTime_chipCount s tick

theorem exec_chipCount {i : Instr} {s t : State} (h : exec i s = .next t) : t.chipCount = s.chipCount := by
  obtain ⟨-, rfl⟩ | ⟨v, -, rfl⟩ | ⟨-, -, r, rfl⟩ := exec_cases h <;> simp

/-- No step writes the chip count, a step with `rst` high no more than any other (00_scope.md R6). -/
theorem step_chipCount {s t : State} (h : step s = .next t) : t.chipCount = s.chipCount := by
  obtain ⟨-, rfl⟩ | ⟨-, -, -, rfl⟩ | ⟨w, -, -, -, he⟩ | ⟨-, -, rfl⟩ := step_cases h
  · exact State.resetBlock_chipCount s.clock
  · exact State.clock_chipCount s
  · exact (exec_chipCount he).trans (State.accept_chipCount s)
  · exact sequencerStep_chipCount s.clock s.tick.level

theorem Reaches.chipCount_eq {s t : State} {n : Nat} (h : Reaches s n t) : t.chipCount = s.chipCount :=
  h.preserves (P := fun u => u.chipCount = s.chipCount) (fun _ _ hu hstep => (step_chipCount hstep).trans hu) rfl

theorem State.width_eq (s : State) : s.width = s.chipCount * 8 := rfl

/-- The bounds of R6 are those of the chip count, 1 and 8191, taken eight times. -/
theorem State.Shape.width_bounds {s : State} (h : s.Shape) : 8 ≤ s.width ∧ s.width ≤ 65528 := by
  obtain ⟨hmin, hmax, -⟩ := h
  simp only [Config.maxChipCount] at hmax
  rw [State.width_eq]
  omega

/-- Settles O46: no step of the run writes the chip count, and the bounds are those of the block the run starts from. -/
theorem widthIsImmutable : Obligations.WidthIsImmutable := by
  intro s t n ⟨hshape, _⟩ hrun
  have hcount : t.chipCount = s.chipCount := hrun.chipCount_eq
  have hwidth : t.width = s.width := by rw [State.width_eq, hcount, State.width_eq]
  rw [hwidth]
  exact ⟨hcount, s.width_eq, hshape.width_bounds⟩

end Sys2Proof.Machine
end

