-- ==== Sys2Proof/Proofs/State.lean ====
section
/-! PROOFS. The state of the block (10_state.md): what reset leaves, what a running hold changes, who writes `pw`, and
the invariant, which reset establishes and every step keeps. -/

namespace Sys2Proof.Machine

open Sys2Proof

/-! ### The state after reset -/

/-- Settles O9: the block that `State.reset` names is one of those with some chip count, and its registers are R30's. -/
theorem resetStateIsTheSpecs : Obligations.ResetStateIsTheSpecs := by
  intro s hs
  obtain ⟨n, rfl⟩ : ∃ n, s = State.resetWith n := hs.elim (fun h => ⟨_, h⟩) id
  exact ⟨rfl, rfl, rfl, rfl, rfl, rfl, rfl, rfl, rfl, rfl⟩

/-! ### A running hold -/

/-- A pulse of `tick` takes one from a hold that has not run out: the counter does not wrap. -/
theorem toNat_sub_one_add_one {x : Arg} (h : x ≠ 0#16) : (x - 1#16).toNat + 1 = x.toNat := by
  bv_omega

/-- Settles O33: such a step is one step of the hold, which writes the counter alone. -/
theorem holdOnlyCountsDown : Obligations.HoldOnlyCountsDown := by
  intro s hrst hbusy hhold
  refine ⟨_, step_holding hrst hbusy hhold, fun htick => ?_, fun htick => ?_, ?_⟩
  · simpa [htick] using toNat_sub_one_add_one hhold
  · simp [htick]
  · simp [SameVectors, SamePins, StepFrame, NoSample, NoResponse]

/-! ### The pulse width -/

/-- A busy step uses `pw` and does not write it, whether a hold runs or not (10_state.md R17). -/
theorem sequencerStep_pw (s : State) (tick : Bool) : (s.sequencerStep tick).pw = s.pw := by
  by_cases hhold : s.hold = 0#16
  · obtain ⟨-, hpw, -⟩ := seqPhase_keeps s
    rw [sequencerStep_free hhold, hpw]
  · rw [sequencerStep_holding hhold, State.passTime_pw]

/-- A command that changes `pw` is a `SET_PW` of the new value (42_pulse_width.md R89). -/
theorem exec_setPw_of_pw_ne {i : Instr} {s t : State} (h : exec i s = .next t) (hne : t.pw ≠ s.pw) :
    i = .setPw t.pw := by
  obtain ⟨-, rfl⟩ | ⟨v, rfl, rfl⟩ | ⟨-, -, r, rfl⟩ := exec_cases h
  · exact absurd rfl hne
  · rfl
  · exact absurd rfl hne

/-- Settles O25: of the four kinds of step, one that accepts nothing and one of the sequencer keep `pw`. -/
theorem onlySetPwOrResetChangesThePulseWidth : Obligations.OnlySetPwOrResetChangesThePulseWidth := by
  intro s t h hne
  obtain ⟨hrst, rfl⟩ | ⟨-, -, -, rfl⟩ | ⟨w, hrst, hidle, hw, hexec⟩ | ⟨-, -, rfl⟩ := step_cases h
  · exact .inl ⟨hrst, rfl⟩
  · exact absurd rfl hne
  · exact .inr ⟨hrst, hidle, w, t.pw, hw, exec_setPw_of_pw_ne hexec hne, rfl⟩
  · exact absurd (sequencerStep_pw s.clock s.tick.level) hne

/-! ### The invariant: reset -/

/-- The block is built with exactly the chip counts of 00_scope.md R5. -/
theorem launch_eq_next {n : Nat} {s : State} (h : launch n = .next s) :
    1 ≤ n ∧ n ≤ Config.maxChipCount ∧ s = State.resetWith n := by
  unfold launch Config.chipCountError at h
  split_ifs at h with hzero hmany
  cases h
  exact ⟨Nat.one_le_iff_ne_zero.2 hzero, Nat.le_of_not_lt hmany, rfl⟩

/-- A reset of a block that exists establishes the invariant, whatever the registers held before (10_state.md R30). -/
theorem inv_resetBlock {s : State} (hmin : 1 ≤ s.chipCount) (hmax : s.chipCount ≤ Config.maxChipCount)
    (hresponses : ∀ r ∈ s.responses, r.vec.length = s.width) (hrsp : s.rsp = none) : s.resetBlock.Inv := by
  have hidx : 0 < s.width := Nat.mul_pos hmin (by decide)
  refine ⟨⟨hmin, hmax, zeros_length _, zeros_length _, hidx, hresponses⟩, ?_, ?_, .inl hrsp, fun _ => hrsp⟩
  · simp [State.SequencerOk, State.unsampled]
  · simp [State.PinsOk, Config.loadReset, Config.clkReset]

/-- The reset state is the reset of itself, with no response on record. -/
theorem inv_resetWith {n : Nat} (hmin : 1 ≤ n) (hmax : n ≤ Config.maxChipCount) : (State.resetWith n).Inv :=
  inv_resetBlock (s := State.resetWith n) hmin hmax nofun rfl

/-- Settles O44: a block that is built has a chip count within the bounds, and 2 is one. -/
theorem resetMeetsTheInvariant : Obligations.ResetMeetsTheInvariant := by
  refine ⟨inv_resetWith (by decide) (by decide), fun n s h => ?_⟩
  obtain ⟨hmin, hmax, rfl⟩ := launch_eq_next h
  exact inv_resetWith hmin hmax

/-! ### The invariant: an idle step -/

/-- Of all that the invariant speaks of, moving the input lines on and lowering `rsp_valid` touches the response ports
alone. -/
theorem State.Inv.clock {s : State} (hs : s.Inv) : s.clock.Inv := by
  obtain ⟨hshape, hseq, hpins, -⟩ := hs
  exact ⟨hshape, hseq, hpins, .inl rfl, fun _ => rfl⟩

theorem State.Inv.accept {s : State} (hs : s.Inv) : s.accept.Inv := hs.clock

/-- A recorded response of `WIDTH` elements keeps the record one of such vectors. -/
theorem State.Shape.respond {s : State} (hs : s.Shape) {r : Response} (hr : r.vec.length = s.width) :
    (s.respond r).Shape := by
  obtain ⟨hmin, hmax, hcur, hprev, hidx, hresponses⟩ := hs
  refine ⟨hmin, hmax, hcur, hprev, hidx, fun q hq => ?_⟩
  obtain hq | rfl : q ∈ s.responses ∨ q = r := by simpa using hq
  · exact hresponses q hq
  · exact hr

/-- A response of `WIDTH` elements may stand on the ports of an idle block. -/
theorem State.Inv.respond {s : State} (hs : s.Inv) (hidle : s.phase = .idle) {r : Response}
    (hr : r.vec.length = s.width) : (s.respond r).Inv := by
  obtain ⟨hshape, hseq, hpins, -⟩ := hs
  exact ⟨hshape.respond hr, hseq, hpins, .inr (by simp), fun hbusy => absurd hidle hbusy⟩

/-- No hold remains in the phases that have none. -/
theorem State.SequencerOk.hold_eq_zero {s : State} (hs : s.SequencerOk) (h : ¬ s.mayHold) : s.hold = 0#16 := by
  obtain ⟨-, -, hmay, -⟩ := hs
  exact by_contra fun hne => h (hmay hne)

theorem State.Inv.hold_eq_zero_of_idle {s : State} (hs : s.Inv) (hidle : s.phase = .idle) : s.hold = 0#16 := by
  obtain ⟨-, hseq, -⟩ := hs
  exact hseq.hold_eq_zero (by simp [State.mayHold, hidle])

/-- An idle block has no hold running, so any pulse width bounds it. -/
theorem State.Inv.setPw {s : State} (hs : s.Inv) (hidle : s.phase = .idle) (v : Arg) : (s.setPw v).Inv := by
  have hhold := hs.hold_eq_zero_of_idle hidle
  obtain ⟨hshape, ⟨hzero, htop, hmay, -, hunsampled⟩, hpins, hrsp⟩ := hs
  exact ⟨hshape, ⟨hzero, htop, hmay, by simp [hhold], hunsampled⟩, hpins, hrsp⟩

/-- The frame latch clears `cur` and starts at the highest index, as `CE_HI` asks (40_poll.md R60). -/
theorem State.Inv.startPoll {s : State} (hs : s.Inv) (hidle : s.phase = .idle) (hrsp : s.rsp = none) :
    (s.latchFrame.goto .ceHi).Inv := by
  have hhold := hs.hold_eq_zero_of_idle hidle
  obtain ⟨⟨hmin, hmax, hcur, hprev, hidx, hresponses⟩, -, ⟨hload, -, hclk, -⟩, -⟩ := hs
  refine ⟨⟨hmin, hmax, zeros_length _, hcur, Nat.sub_one_lt_of_lt hidx, hresponses⟩, ?_, ?_, .inl hrsp, fun _ => hrsp⟩
  · simp [State.SequencerOk, hhold]
  · simp [State.PinsOk, hload, hclk, hidle]

/-- An indexed query responds with the zero vector, in range or not (41_queries.md R83). -/
theorem indexedQuery_responds_zeros (s : State) (i : Nat) (b : Bool) :
    ∃ r, s.indexedQuery i b = s.respond r ∧ r.vec = zeros s.width := by
  rcases Nat.lt_or_ge i s.width with h | h
  · exact ⟨_, indexedQuery_inRange h b, rfl⟩
  · exact ⟨_, indexedQuery_outOfRange h b, rfl⟩

/-- Every command but `POLL` and `SET_PW` responds with the zero vector or the current one (41_queries.md R83,
42_pulse_width.md R87, 60_exceptions.md R91). -/
theorem exec_responds {i : Instr} (s : State) (hpoll : i ≠ .poll) (hset : ∀ v, i ≠ .setPw v) :
    ∃ r, exec i s = .next (s.respond r) ∧ (r.vec = zeros s.width ∨ r.vec = s.cur) := by
  cases i
  case poll => exact absurd rfl hpoll
  case setPw v => exact absurd rfl (hset v)
  case rawState => exact ⟨_, rfl, .inr rfl⟩
  case state | last | changed | pressed | released =>
    obtain ⟨r, hr, hvec⟩ := indexedQuery_responds_zeros s _ _
    exact ⟨r, congrArg _ hr, .inl hvec⟩
  all_goals exact ⟨_, rfl, .inl rfl⟩

/-- Every command keeps the invariant of the idle block that accepts it. -/
theorem exec_inv {i : Instr} {s t : State} (hs : s.Inv) (hidle : s.phase = .idle) (hrsp : s.rsp = none)
    (h : exec i s = .next t) : t.Inv := by
  obtain ⟨-, rfl⟩ | ⟨v, -, rfl⟩ | ⟨hpoll, hset, -⟩ := exec_cases h
  · exact hs.startPoll hidle hrsp
  · exact (hs.setPw hidle v).respond hidle (zeros_length _)
  · obtain ⟨r, hr, hvec⟩ := exec_responds s hpoll hset
    cases hr.symm.trans h
    have ⟨⟨_, _, hcur, _⟩, _⟩ := hs
    refine hs.respond hidle ?_
    obtain hvec | hvec := hvec
    · exact hvec ▸ zeros_length s.width
    · exact hvec ▸ hcur

/-! ### The invariant: a busy step -/

/-- A running hold stays within `pw` as it goes down. -/
theorem State.Inv.passTime {s : State} (hs : s.Inv) (hhold : s.hold ≠ 0#16) (tick : Bool) : (s.passTime tick).Inv := by
  obtain ⟨hshape, ⟨hzero, htop, hmay, hle, hunsampled⟩, hpins, hrsp⟩ := hs
  refine ⟨hshape, ⟨hzero, htop, fun _ => hmay hhold, ?_, hunsampled⟩, hpins, hrsp⟩
  have hdown := toNat_sub_one_add_one hhold
  cases tick
  · exact hle
  · simp only [State.passTime_hold, State.passTime_pw, if_true]
    omega

/-- To show a property of the state after the sequencer's step, show it of what each phase does: `seqPhase_cases` with a
name for every case. The three parts of `CK_LO` are the falling edge, the end of the poll and the next bit. -/
theorem seqPhase_elim {motive : State → Prop} (s : State)
    (idle : s.phase = .idle → motive s)
    (ceHi : s.phase = .ceHi → motive ((s.out .ce true).goto .ldLo))
    (ldLo : s.phase = .ldLo → motive ((s.out .load false).wait.goto .ldHi))
    (ldHi : s.phase = .ldHi → motive ((s.out .load true).wait.goto .ceLo))
    (ceLo : s.phase = .ceLo → motive ((s.out .ce false).goto .sample))
    (sample : s.phase = .sample → motive (s.takeSample.goto .ckHi))
    (ckHi : s.phase = .ckHi → motive ((s.out .clk true).wait.goto .ckLo))
    (clockFalls : s.phase = .ckLo → s.oClk = true → motive ((s.out .clk false).wait))
    (pollEnds : s.phase = .ckLo → s.oClk = false → s.idx = 0 → motive ((s.respond ⟨.ok, 0#16, s.cur⟩).goto .idle))
    (nextBit : s.phase = .ckLo → s.oClk = false → s.idx ≠ 0 → motive (s.countDown.goto .sample)) :
    motive (seqPhase s) := by
  rcases seqPhase_cases s with ⟨hp, h⟩ | ⟨hp, h⟩ | ⟨hp, h⟩ | ⟨hp, h⟩ | ⟨hp, h⟩ | ⟨hp, h⟩ | ⟨hp, h⟩ | ⟨hp, hc, h⟩ |
    ⟨hp, hc, hi, h⟩ | ⟨hp, hc, hi, h⟩ <;> rw [h]
  exacts [idle hp, ceHi hp, ldLo hp, ldHi hp, ceLo hp, sample hp, ckHi hp, clockFalls hp hc, pollEnds hp hc hi,
    nextBit hp hc hi]

/-- The sequencer writes `cur` one bit at a time, moves `idx` downwards, and puts on record the current vector alone. -/
theorem State.Shape.seqPhase {s : State} (hs : s.Shape) : (seqPhase s).Shape := by
  have ⟨hmin, hmax, hcur, hprev, hidx, hresponses⟩ := hs
  apply seqPhase_elim (motive := State.Shape)
  case sample => exact fun _ => ⟨hmin, hmax, (writeBit_length _ _ _).trans hcur, hprev, hidx, hresponses⟩
  case pollEnds => exact fun _ _ _ => hs.respond hcur
  case nextBit => exact fun _ _ _ => ⟨hmin, hmax, hcur, hprev, (Nat.sub_le _ _).trans_lt hidx, hresponses⟩
  all_goals
    intros
    exact hs

/-- Each phase hands the pins over at the levels that the next one asks for. -/
theorem State.PinsOk.seqPhase {s : State} (hs : s.PinsOk) : (seqPhase s).PinsOk := by
  have ⟨hload, _, hclk, hce, hce'⟩ := hs
  apply seqPhase_elim (motive := State.PinsOk)
  case idle => exact fun _ => hs
  case pollEnds | nextBit =>
    intro hp hc hi
    simp [State.PinsOk, hload, hce', hp, hc]
  all_goals
    intro hp
    simp [State.PinsOk, hload, hclk, hce, hce', hp]

/-- The positions still to be sampled never become more: `idx` goes down by one for each bit (40_poll.md R68). -/
theorem seqPhase_unsampled_le (s : State) : (seqPhase s).unsampled ≤ s.unsampled := by
  apply seqPhase_elim (motive := fun t => t.unsampled ≤ s.unsampled)
  case nextBit =>
    intro hp _ hi
    simp only [State.unsampled, State.goto_phase, State.goto_idx, State.countDown_idx, hp]
    omega
  all_goals
    intro hp
    simp [State.unsampled, hp]

/-- `SAMPLE` writes at the highest position not yet sampled and takes it away; nothing else writes `cur`, so the
positions that remain keep their values (40_poll.md R65). -/
theorem readBit_seqPhase (s : State) : ∀ i < (seqPhase s).unsampled, readBit (seqPhase s).cur i = readBit s.cur i := by
  apply seqPhase_elim (motive := fun t => ∀ i < t.unsampled, readBit t.cur i = readBit s.cur i)
  case sample => exact fun _ i hi => readBit_writeBit_other s.cur (Nat.ne_of_lt hi) s.dataLevel
  all_goals
    intros
    rfl

/-- The hold is loaded by `Wait(pw)` alone, on the way into a phase that has one (40_poll.md R66). -/
theorem seqPhase_hold (s : State) :
    (seqPhase s).hold = s.hold ∨ (seqPhase s).hold = s.pw ∧ (seqPhase s).mayHold := by
  apply seqPhase_elim (motive := fun t => t.hold = s.hold ∨ t.hold = s.pw ∧ t.mayHold)
  case ldLo | ldHi | ckHi | clockFalls =>
    intro hp
    simp [State.mayHold, hp]
  all_goals
    intros
    exact .inl rfl

/-- The part of `SequencerOk` that speaks of `idx`: 0 in `IDLE`, the highest index until the first sample
(10_state.md R20). -/
abbrev State.IndexOk (s : State) : Prop :=
  (s.phase = .idle → s.idx = 0) ∧
  (s.phase = .ceHi ∨ s.phase = .ldLo ∨ s.phase = .ldHi ∨ s.phase = .ceLo → s.idx = s.width - 1)

/-- `idx` stays until the first sample, and the poll ends where it has come down to 0. -/
theorem State.IndexOk.seqPhase {s : State} (hs : s.IndexOk) : (seqPhase s).IndexOk := by
  have ⟨_, htop⟩ := hs
  apply seqPhase_elim (motive := State.IndexOk)
  case idle => exact fun _ => hs
  case pollEnds =>
    intro _ _ hi
    simp [State.IndexOk, hi]
  all_goals
    intro hp
    simp [State.IndexOk, htop, hp]

/-- The clauses of `SequencerOk` that speak of the hold follow from how the sequencer loads it, the one that speaks of
the positions not yet sampled from how it writes `cur`. -/
theorem State.SequencerOk.seqPhase {s : State} (hs : s.SequencerOk) (hhold : s.hold = 0#16) :
    (seqPhase s).SequencerOk := by
  obtain ⟨hzero, htop, -, -, hunsampled⟩ := hs
  obtain ⟨hzero', htop'⟩ := State.IndexOk.seqPhase ⟨hzero, htop⟩
  obtain ⟨-, hpw, -⟩ := seqPhase_keeps s
  refine ⟨hzero', htop', fun hne => ?_, ?_, fun i hi => ?_⟩
  · obtain hsame | ⟨-, hmay⟩ := seqPhase_hold s
    · exact absurd (hsame.trans hhold) hne
    · exact hmay
  · rw [hpw]
    obtain hsame | ⟨hload, -⟩ := seqPhase_hold s
    · simp [hsame, hhold]
    · rw [hload]
  · exact (readBit_seqPhase s i hi).trans (hunsampled i (hi.trans_le (seqPhase_unsampled_le s)))

/-- The sequencer gives one response, at the end of the poll, and is idle then (40_poll.md R68). -/
theorem responseOk_seqPhase {s : State} (hrsp : s.rsp = none) : (seqPhase s).ResponseOk := by
  apply seqPhase_elim (motive := State.ResponseOk)
  case pollEnds => simp [State.ResponseOk]
  all_goals
    intros
    exact ⟨.inl hrsp, fun _ => hrsp⟩

/-- A step of a busy block keeps the invariant, whether a hold runs in it or the sequencer goes on. -/
theorem State.Inv.sequencerStep {s : State} (hs : s.Inv) (hrsp : s.rsp = none) (tick : Bool) :
    (s.sequencerStep tick).Inv := by
  by_cases hhold : s.hold = 0#16
  · obtain ⟨hshape, hseq, hpins, -⟩ := hs
    rw [sequencerStep_free hhold]
    exact ⟨hshape.seqPhase, hseq.seqPhase hhold, hpins.seqPhase, responseOk_seqPhase hrsp⟩
  · rw [sequencerStep_holding hhold]
    exact hs.passTime hhold tick

/-- Settles O45, by the four kinds of step: reset establishes the invariant afresh, and a pause, a command and a step of
the poll in flight each keep it. -/
theorem everyStepKeepsTheInvariant : Obligations.EveryStepKeepsTheInvariant := by
  intro s t hs h
  obtain ⟨-, rfl⟩ | ⟨-, -, -, rfl⟩ | ⟨w, -, hidle, -, hexec⟩ | ⟨-, -, rfl⟩ := step_cases h
  · obtain ⟨⟨hmin, hmax, -, -, -, hresponses⟩, -⟩ := hs
    exact inv_resetBlock (s := s.clock) hmin hmax hresponses rfl
  · exact hs.clock
  · exact exec_inv hs.accept hidle rfl hexec
  · exact hs.clock.sequencerStep rfl s.tick.level

end Sys2Proof.Machine
end

