-- ==== Sys2Proof/Proofs/Memory.lean ====
section
/-! PROOFS. The two small address spaces of the block (20_memory.md): the input-index space with its vectors, their bytes
and their numbers, and the pin space. -/

namespace Sys2Proof.Machine

open Sys2Proof

/-! ### Writes to the two vectors -/

/-- Of the commands `POLL` alone writes the vectors, both as a whole (20_memory.md R33). -/
theorem exec_vectors {i : Instr} {s t : State} (h : exec i s = .next t) :
    (i = .poll ∧ t.prev = s.cur ∧ t.cur = zeros s.width) ∨ SameVectors s t := by
  obtain ⟨hpoll, rfl⟩ | ⟨v, -, rfl⟩ | ⟨-, -, r, rfl⟩ := exec_cases h
  · exact .inl ⟨hpoll, rfl, rfl⟩
  · exact .inr ⟨rfl, rfl⟩
  · exact .inr ⟨rfl, rfl⟩

/-- A written bit leaves every other position of the list alone, those beyond its end too. -/
theorem getElem?_writeBit_other (v : Bits) {i j : Nat} (h : j ≠ i) (b : Bool) : (writeBit v i b)[j]? = v[j]? :=
  List.getElem?_set_ne h.symm

/-- The sequencer writes `cur` in `SAMPLE` alone, and there at `idx` alone (40_poll.md R65). -/
theorem seqPhase_cur (s : State) :
    (seqPhase s).cur = s.cur ∨ (s.phase = .sample ∧ ∀ i, i ≠ s.idx → (seqPhase s).cur[i]? = s.cur[i]?) := by
  apply seqPhase_elim (motive := fun t => t.cur = s.cur ∨ (s.phase = .sample ∧ ∀ i, i ≠ s.idx → t.cur[i]? = s.cur[i]?))
  case sample => exact fun hp => .inr ⟨hp, fun i hi => getElem?_writeBit_other s.cur hi s.dataLevel⟩
  all_goals
    intros
    exact .inl rfl

/-- A busy step never writes `prev`. -/
theorem sequencerStep_prev (s : State) (tick : Bool) : (s.sequencerStep tick).prev = s.prev := by
  by_cases hhold : s.hold = 0#16
  · obtain ⟨-, -, hprev, -⟩ := seqPhase_keeps s
    rw [sequencerStep_free hhold, hprev]
  · rw [sequencerStep_holding hhold, State.passTime_prev]

/-- A busy step that changes `cur` takes a sample and changes one position. -/
theorem sequencerStep_cur_ne {s : State} {tick : Bool} (hne : (s.sequencerStep tick).cur ≠ s.cur) :
    s.phase = .sample ∧ s.hold = 0#16 ∧ ∀ i, i ≠ s.idx → (s.sequencerStep tick).cur[i]? = s.cur[i]? := by
  by_cases hhold : s.hold = 0#16
  · rw [sequencerStep_free hhold] at hne ⊢
    obtain ⟨hp, hother⟩ := (seqPhase_cur s).resolve_left hne
    exact ⟨hp, hhold, hother⟩
  · rw [sequencerStep_holding hhold] at hne
    exact absurd rfl hne

/-- Settles O47: with `rst` low, a pause writes no vector, an accepted command does so as `exec_vectors` says, and a busy
step writes the one bit of `SAMPLE`. -/
theorem onlyPollOrResetChangesTheVectors : Obligations.OnlyPollOrResetChangesTheVectors := by
  intro s t h hlow
  obtain ⟨hhigh, -⟩ | ⟨-, -, -, rfl⟩ | ⟨w, -, hidle, hw, hexec⟩ | ⟨-, -, rfl⟩ := step_cases h
  · exact absurd (hlow.symm.trans hhigh) Bool.false_ne_true
  · exact ⟨absurd rfl, absurd rfl⟩
  · obtain ⟨hpoll, hprev, hcur⟩ | ⟨hcur, hprev⟩ := exec_vectors hexec
    · exact ⟨fun _ => ⟨hidle, ⟨w, hw, hpoll⟩, hprev⟩, fun _ => .inl ⟨hidle, ⟨w, hw, hpoll⟩, hcur⟩⟩
    · exact ⟨absurd hprev, absurd hcur⟩
  · exact ⟨absurd (sequencerStep_prev s.clock s.tick.level), fun hne => .inr (sequencerStep_cur_ne (s := s.clock) hne)⟩

/-! ### Writes to the pins -/

/-- The phases that name a pin: the only ones that have an `Out` on it (40_poll.md R61 to R68). -/
def Phase.names (ph : Phase) : Pin → Prop
  | .ce => ph = .ceHi ∨ ph = .ceLo
  | .load => ph = .ldLo ∨ ph = .ldHi
  | .clk => ph = .ckHi ∨ ph = .ckLo

/-- One `Out` changes one pin (20_memory.md R38). -/
theorem pinLevel_out (s : State) (p : Pin) (v : Bool) : (s.out p v).pinLevel = Function.update s.pinLevel p v := by
  funext q
  cases p <;> cases q <;> rfl

/-- From `s` to `t` the events `es` are recorded, and they account for the pins: an `Out` is on a pin that the phase names
and is what that pin is left at, a pin that changes level has its `Out`, and no two pins change. -/
def PinsRecorded (s t : State) (es : List PinEvent) : Prop :=
  t.trace = s.trace ++ es ∧ es.length ≤ 2 ∧
  (∀ p v, PinEvent.out p v ∈ es → s.phase.names p ∧ t.pinLevel p = v) ∧
  (∀ p, t.pinLevel p ≠ s.pinLevel p → PinEvent.out p (t.pinLevel p) ∈ es) ∧
  ∀ p q, t.pinLevel p ≠ s.pinLevel p → t.pinLevel q ≠ s.pinLevel q → p = q

/-- Without an `Out` the pins stay as they are, and all that can be recorded is a sample. -/
theorem PinsRecorded.of_pinLevel_eq {s t : State} {es : List PinEvent} (hpins : t.pinLevel = s.pinLevel)
    (htrace : t.trace = s.trace ++ es) (hes : es = [] ∨ ∃ b, es = [.read b]) : PinsRecorded s t es := by
  have hsame (p : Pin) : t.pinLevel p = s.pinLevel p := congrFun hpins p
  refine ⟨htrace, ?_, ?_, fun p hne => absurd (hsame p) hne, fun p _ hne => absurd (hsame p) hne⟩ <;>
    obtain rfl | ⟨b, rfl⟩ := hes <;> simp

/-- One `Out` with at most a `Wait` after it: the pin of the `Out` is the only one that can have changed. -/
theorem PinsRecorded.of_out {s t : State} {p : Pin} {v : Bool} {waits : List PinEvent} (hnames : s.phase.names p)
    (hpins : t.pinLevel = (s.out p v).pinLevel) (htrace : t.trace = s.trace ++ .out p v :: waits)
    (hwaits : waits = [] ∨ ∃ n, waits = [.wait n]) : PinsRecorded s t (.out p v :: waits) := by
  have hset : t.pinLevel p = v := by rw [hpins, pinLevel_out, Function.update_self]
  have honly (q : Pin) (hne : t.pinLevel q ≠ s.pinLevel q) : q = p := by
    by_contra hq
    exact hne (by rw [hpins, pinLevel_out, Function.update_of_ne hq])
  have hout (q : Pin) (u : Bool) (hmem : PinEvent.out q u ∈ PinEvent.out p v :: waits) : q = p ∧ u = v := by
    obtain rfl | ⟨n, rfl⟩ := hwaits <;> simpa using hmem
  refine ⟨htrace, ?_, fun q u hmem => ?_, fun q hne => ?_, fun q r hq hr => (honly q hq).trans (honly r hr).symm⟩
  · obtain rfl | ⟨n, rfl⟩ := hwaits <;> simp
  · obtain ⟨rfl, rfl⟩ := hout q u hmem
    exact ⟨hnames, hset⟩
  · obtain rfl := honly q hne
    rw [hset]
    exact List.mem_cons_self

/-- `Out(p, v)`, then the next phase, as in `CE_HI` and `CE_LO`. -/
theorem PinsRecorded.out {s : State} {p : Pin} (hnames : s.phase.names p) (v : Bool) (next : Phase) :
    PinsRecorded s ((s.out p v).goto next) [.out p v] :=
  .of_out hnames rfl rfl (.inl rfl)

/-- `Out(p, v); Wait(pw)`, as in the phases of the load and the clock line. -/
theorem PinsRecorded.out_wait {s : State} {p : Pin} (hnames : s.phase.names p) (v : Bool) :
    PinsRecorded s (s.out p v).wait [.out p v, .wait s.pw] :=
  .of_out hnames rfl (by simp) (.inr ⟨s.pw, rfl⟩)

/-- Going to another phase is seen neither on the pins nor in the trace. -/
theorem PinsRecorded.goto {s t : State} {es : List PinEvent} (h : PinsRecorded s t es) (next : Phase) :
    PinsRecorded s (t.goto next) es := h

/-- The `Out`s of the sequencer, phase by phase: each of the six phases with an `Out` has one, on the pin it names. -/
theorem seqPhase_pinsRecorded (s : State) : ∃ es, PinsRecorded s (seqPhase s) es := by
  apply seqPhase_elim (motive := fun t => ∃ es, PinsRecorded s t es)
  case ceHi => exact fun hp => ⟨_, .out (p := .ce) (.inl hp) true .ldLo⟩
  case ldLo => exact fun hp => ⟨_, (PinsRecorded.out_wait (p := .load) (.inl hp) false).goto .ldHi⟩
  case ldHi => exact fun hp => ⟨_, (PinsRecorded.out_wait (p := .load) (.inr hp) true).goto .ceLo⟩
  case ceLo => exact fun hp => ⟨_, .out (p := .ce) (.inr hp) false .sample⟩
  case ckHi => exact fun hp => ⟨_, (PinsRecorded.out_wait (p := .clk) (.inl hp) true).goto .ckLo⟩
  case clockFalls => exact fun hp _ => ⟨_, .out_wait (p := .clk) (.inr hp) false⟩
  case sample => exact fun _ => ⟨_, .of_pinLevel_eq rfl rfl (.inr ⟨s.dataLevel, rfl⟩)⟩
  all_goals
    intros
    exact ⟨[], .of_pinLevel_eq rfl (List.append_nil _).symm (.inl rfl)⟩

/-- No command reads or writes a pin (20_memory.md R31). -/
theorem exec_pins {i : Instr} {s t : State} (h : exec i s = .next t) :
    t.pinLevel = s.pinLevel ∧ t.trace = s.trace := by
  obtain ⟨-, rfl⟩ | ⟨v, -, rfl⟩ | ⟨-, -, r, rfl⟩ := exec_cases h <;> exact ⟨rfl, rfl⟩

/-- With `rst` low a step leaves the pins and the trace alone, or it is the sequencer's own, with no hold running. -/
theorem step_pins_cases {s t : State} (h : step s = .next t) (hlow : s.rst.level = false) :
    (t.pinLevel = s.pinLevel ∧ t.trace = s.trace) ∨ (s.phase ≠ .idle ∧ s.hold = 0#16 ∧ t = seqPhase s.clock) := by
  obtain ⟨hhigh, -⟩ | ⟨-, -, -, rfl⟩ | ⟨w, -, -, -, hexec⟩ | ⟨-, hbusy, rfl⟩ := step_cases h
  · exact absurd (hlow.symm.trans hhigh) Bool.false_ne_true
  · exact .inl ⟨rfl, rfl⟩
  · exact .inl (exec_pins (s := s.accept) hexec)
  · by_cases hhold : s.hold = 0#16
    · exact .inr ⟨hbusy, hhold, sequencerStep_free (s := s.clock) hhold _⟩
    · rw [sequencerStep_holding (s := s.clock) hhold]
      exact .inl ⟨rfl, rfl⟩

/-- The events of a step with `rst` low account for the pins, and there are some only in a step of the sequencer. -/
theorem step_pinsRecorded {s t : State} (h : step s = .next t) (hlow : s.rst.level = false) :
    ∃ es, PinsRecorded s t es ∧ (es ≠ [] → s.phase ≠ .idle ∧ s.hold = 0#16) := by
  obtain ⟨hpins, htrace⟩ | ⟨hbusy, hhold, rfl⟩ := step_pins_cases h hlow
  · exact ⟨[], .of_pinLevel_eq hpins (by simpa using htrace) (.inl rfl), absurd rfl⟩
  · obtain ⟨es, hes⟩ := seqPhase_pinsRecorded s.clock
    exact ⟨es, hes, fun _ => ⟨hbusy, hhold⟩⟩

/-- Settles O48: the clauses are those of `PinsRecorded`, its one clause on the phases read for each of the three pins. -/
theorem pinsChangeOneAtATimeByRecordedEvents : Obligations.PinsChangeOneAtATimeByRecordedEvents := by
  intro s t h hlow
  obtain ⟨es, ⟨htrace, hlen, hout, hchange, hone⟩, hbusy⟩ := step_pinsRecorded h hlow
  have hlevel (p : Pin) (v : Bool) (hmem : PinEvent.out p v ∈ es) : t.pinLevel p = v := (hout p v hmem).2
  have hnames (p : Pin) (v : Bool) (hmem : PinEvent.out p v ∈ es) : s.phase.names p := (hout p v hmem).1
  exact ⟨es, htrace, hlen, hbusy, hlevel, hchange, hnames .ce, hnames .load, hnames .clk, hone⟩

/-! ### The bytes of a vector -/

/-- Within the byte of chip `c`, bit `k` is element `8 * c + k` of the vector (20_memory.md R35). -/
theorem getElem?_chipBits (v : Bits) (c : Nat) {k : Nat} (hk : k < 8) : (chipBits v c)[k]? = v[8 * c + k]? := by
  rw [chipBits, List.getElem?_take_of_lt hk, List.getElem?_drop]

/-- A chip that the vector reaches has a whole byte. -/
theorem chipBits_length {v : Bits} {c : Nat} (h : 8 * c + 8 ≤ v.length) : (chipBits v c).length = 8 := by
  rw [chipBits, List.length_take, List.length_drop]
  omega

/-- An index is put together from its chip and its bit in that chip. -/
theorem index_eq_chip_and_bit (i : Nat) : i = 8 * chipId i + bitInChip i := (Nat.div_add_mod i 8).symm

/-- Settles O52: a valid index lies below eight times the chip count, so its chip exists and has a whole byte. -/
theorem indexMapNamesChipAndBit : Obligations.IndexMapNamesChipAndBit := by
  intro s v i hv hi
  rw [State.width_eq] at hv hi
  have hchip : chipId i < s.chipCount := Nat.div_lt_of_lt_mul (by omega)
  have hbit : bitInChip i < 8 := Nat.mod_lt i (by decide)
  have hsplit := index_eq_chip_and_bit i
  refine ⟨hchip, hbit, hsplit, chipBits_length (by omega), ?_⟩
  rw [getElem?_chipBits v _ hbit, ← hsplit]

/-! ### A vector as a number -/

theorem bitsToNat_lt (v : Bits) : bitsToNat v < 2 ^ v.length := by
  induction v with
  | nil => decide
  | cons b v ih =>
    have hb := b.toNat_lt
    rw [bitsToNat, List.length_cons, Nat.pow_succ]
    omega

/-- The head of a vector is the lowest bit of its number, and the tail is the rest of it, so element `i` is bit `i`. -/
theorem testBit_bitsToNat (v : Bits) (i : Nat) : (bitsToNat v).testBit i = v.getD i false := by
  induction v generalizing i with
  | nil => simp [bitsToNat]
  | cons b v ih =>
    cases i with
    | zero => cases b <;> simp [bitsToNat, Nat.testBit_zero]
    | succ i =>
      have hrest : bitsToNat (b :: v) / 2 = bitsToNat v := by
        have hb := b.toNat_lt
        rw [bitsToNat]
        omega
      rw [Nat.testBit_succ, hrest, ih, List.getD_cons_succ]

/-- A vector is read back from its number. -/
theorem bitsOfNat_bitsToNat (v : Bits) : bitsOfNat v.length (bitsToNat v) = v := by
  refine List.ext_getElem (by simp [bitsOfNat]) fun i _ hi => ?_
  simp [bitsOfNat, testBit_bitsToNat, hi]

/-- Byte `c` of the number and the byte of chip `c` have the same eight bits, and no others (20_memory.md R40 (c)). -/
theorem bitsToNat_byte (v : Bits) (c : Nat) : bitsToNat v / 256 ^ c % 256 = bitsToNat (chipBits v c) := by
  have hpow : 256 ^ c = 2 ^ (8 * c) := by rw [Nat.pow_mul]
  refine Nat.eq_of_testBit_eq fun k => ?_
  rw [hpow, show 256 = 2 ^ 8 from rfl, Nat.testBit_mod_two_pow, Nat.testBit_div_two_pow, testBit_bitsToNat,
    testBit_bitsToNat, List.getD_eq_getElem?_getD, List.getD_eq_getElem?_getD]
  by_cases hk : k < 8
  · simp [hk, getElem?_chipBits v c hk, Nat.add_comm]
  · simp [hk, chipBits]

/-- Settles O53: element `i` is bit `i` of the number, and the other clauses follow from that. -/
theorem vectorPacksElementIAtWeightTwoToTheI : Obligations.VectorPacksElementIAtWeightTwoToTheI :=
  fun v => ⟨bitsToNat_lt v, testBit_bitsToNat v, bitsOfNat_bitsToNat v, bitsToNat_byte v⟩

end Sys2Proof.Machine
end

