-- ==== Sys2Proof/Proofs/Encoding.lean ====
section
/-! PROOFS. The command words and the command port (30_encoding.md): decoder and encoder undo each other row by row of
the opcode map, an idle block alone accepts a word, and responses come when they are due and carry what R50 says. -/

namespace Sys2Proof

/-! ### The rows of the opcode map -/

/-- The command of the same row of the opcode map with another operand (30_encoding.md R49, R53). -/
def Instr.withOperand : Instr → Arg → Instr
  | .state _, arg => .state arg.toNat
  | .last _, arg => .last arg.toNat
  | .changed _, arg => .changed arg.toNat
  | .pressed _, arg => .pressed arg.toNat
  | .released _, arg => .released arg.toNat
  | .setPw _, arg => .setPw arg
  | i, _ => i

/-- The decoder, said once: `op` names the row, and the row takes its operand from `arg`. -/
theorem decode_of_opField {w : Word} {i : Instr} (h : opField w = i.opcode) :
    decode w = i.withOperand (argField w) := by
  unfold decode
  rw [h]
  cases i <;> rfl

theorem decode_append (i : Instr) (arg : Arg) : decode (i.opcode ++ arg) = i.withOperand arg := by
  rw [decode_of_opField (opField_append i.opcode arg), argField_append]

/-- Each of the sixteen values of `op` has a row (30_encoding.md R53). -/
theorem opcode_surjective : Function.Surjective Instr.opcode := by
  have hrow : ∀ op : BitVec 4, (decode (op ++ 0#16)).opcode = op := by decide
  exact fun op => ⟨_, hrow op⟩

/-! ### Decoding an encoded command -/

/-- A command with an encoding is its row with its own operand. -/
theorem withOperand_operand {i : Instr} (h : i.wf = true) : i.withOperand i.operand = i := by
  cases i
  case state | last | changed | pressed | released => exact congrArg _ (index_toNat h)
  all_goals rfl

theorem decode_encode {i : Instr} (h : i.wf = true) : decode (encode i) = i := by
  rw [encode, decode_append, withOperand_operand h]

/-- A word stands for itself as a number of at least 20 bits. -/
theorem decodeTableWord_toNat {nbits : Nat} (h : 20 ≤ nbits) (w : Word) :
    decodeTableWord nbits w.toNat = some (decode w) := by
  have hfits : w.toNat < 2 ^ nbits := w.isLt.trans_le (Nat.pow_le_pow_right (by decide) h)
  rw [decodeTableWord_eq hfits w.isLt, BitVec.ofNat_toNat, BitVec.setWidth_eq]

/-- Settles O3: the word carries the opcode of the command's row and the operand that the row takes back. -/
theorem decodingUndoesEncoding : Obligations.DecodingUndoesEncoding := by
  intro i hwf
  refine ⟨decode_encode hwf, fun nbits hbits => ?_⟩
  rw [decodeTableWord_toNat hbits, decode_encode hwf]

/-! ### Match and mask -/

theorem and_mask_eq (w : Word) : w &&& 0xF0000#20 = opField w ++ 0x0000#16 := by
  rw [← Laws.append_mask (opField w) (argField w), append_fields]

/-- A word that matches a row under the map's mask decodes to a command of that row. -/
theorem decode_of_mask {w : Word} (i : Instr) (h : w &&& 0xF0000#20 = i.opcode ++ 0x0000#16) :
    decode w = i.withOperand (argField w) := by
  have hop : opField w = i.opcode := by
    rw [and_mask_eq] at h
    rw [← opField_append (opField w) 0x0000#16, h, opField_append]
  exact decode_of_opField hop

theorem argField_eq_ofNat (w : Word) : argField w = BitVec.ofNat 16 w.toNat := rfl

theorem argField_toNat (w : Word) : (argField w).toNat = w.toNat % 65536 := by
  rw [argField_eq_ofNat, BitVec.toNat_ofNat]

/-- Settles O2: each clause is `decode_of_mask` for its row; the operand of the command that names the row plays no
part. -/
theorem matchAndMaskSelectTheCommand : Obligations.MatchAndMaskSelectTheCommand := by
  intro w
  rw [← argField_toNat, ← argField_eq_ofNat]
  exact ⟨decode_of_mask .poll, decode_of_mask (.state 0), decode_of_mask (.last 0), decode_of_mask (.changed 0),
    decode_of_mask .changedAny, decode_of_mask (.pressed 0), decode_of_mask (.released 0), decode_of_mask .rawState,
    decode_of_mask .getPw, decode_of_mask (.setPw 0), decode_of_mask .reserved0, decode_of_mask .reservedB,
    decode_of_mask .reservedC, decode_of_mask .reservedD, decode_of_mask .reservedE, decode_of_mask .reservedF⟩

/-! ### Encoding a decoded word -/

/-- An operand field holds an index that fits it. -/
theorem wf_withOperand (i : Instr) (arg : Arg) : (i.withOperand arg).wf = true := by
  cases i
  case state | last | changed | pressed | released => exact decide_eq_true arg.isLt
  all_goals rfl

/-- A command with the two fields of a word is encoded as that word. -/
theorem encode_eq_word {w : Word} {i : Instr} (hop : opField w = i.opcode) (harg : i.operand = argField w) :
    encode i = w := by
  rw [encode, ← hop, harg, append_fields]

/-- A command that ignores its operand is encoded with zeros there. -/
theorem encode_eq_masked {w : Word} {i : Instr} (hop : opField w = i.opcode) (harg : i.operand = 0x0000#16) :
    encode i = w &&& 0xF0000#20 := by
  rw [encode, ← hop, harg, and_mask_eq]

/-- Settles O4, row by row: the rows with an operand give the whole word back, the others its opcode. -/
theorem encodingUndoesDecoding : Obligations.EncodingUndoesDecoding := by
  intro w
  obtain ⟨i, hi⟩ := opcode_surjective (opField w)
  have hindex : BitVec.ofNat 16 (argField w).toNat = argField w := by rw [BitVec.ofNat_toNat, BitVec.setWidth_eq]
  rw [decode_of_opField hi.symm]
  refine ⟨wf_withOperand i (argField w), ?_⟩
  cases i
  case state | last | changed | pressed | released => exact encode_eq_word hi.symm hindex
  case setPw => exact encode_eq_word hi.symm rfl
  all_goals exact encode_eq_masked hi.symm rfl

/-- Settles O1: the fourteen words are decoded. -/
theorem wordsOfTheMapDecode : Obligations.WordsOfTheMapDecode := by
  unfold Obligations.WordsOfTheMapDecode
  decide

end Sys2Proof

namespace Sys2Proof.Machine

open Sys2Proof

/-! ### Reserved words -/

/-- A command that raises `IllegalCommand` responds so and does nothing else (60_exceptions.md R91, R95). -/
theorem onlyResponds_of_illegalCommand {i : Instr} {s : State} (op : BitVec 4)
    (h : exec i s = .next (s.raise (.illegalCommand op))) :
    ∃ t, exec i s = .next t ∧ OnlyResponds s t ⟨.illegalCmd, 0x0000#16, List.replicate s.width false⟩ :=
  ⟨_, h, onlyResponds_respond s _⟩

/-- Settles O26: the decoder reads no operand in these rows, and each of the six commands raises the fault with its own
`op`. -/
theorem reservedWordsAreIllegalCommands : Obligations.ReservedWordsAreIllegalCommands := by
  refine ⟨fun arg => ⟨decode_append .reserved0 arg, decode_append .reservedB arg, decode_append .reservedC arg,
    decode_append .reservedD arg, decode_append .reservedE arg, decode_append .reservedF arg⟩, fun s => ?_⟩
  simp only [List.forall_mem_cons]
  exact ⟨onlyResponds_of_illegalCommand 0x0#4 rfl, onlyResponds_of_illegalCommand 0xB#4 rfl,
    onlyResponds_of_illegalCommand 0xC#4 rfl, onlyResponds_of_illegalCommand 0xD#4 rfl,
    onlyResponds_of_illegalCommand 0xE#4 rfl, onlyResponds_of_illegalCommand 0xF#4 rfl, nofun⟩

/-! ### The command port -/

theorem cmdReady_iff (s : State) : s.cmdReady = true ↔ s.phase = .idle := decide_eq_true_iff

theorem cmdReady_eq_false_iff (s : State) : s.cmdReady = false ↔ s.phase ≠ .idle := decide_eq_false_iff_not

/-- An idle block runs the word on the command port (30_encoding.md R47). -/
theorem step_accept {s : State} {w : Word} (hrst : s.rst.level = false) (hidle : s.phase = .idle)
    (hw : s.presented = some w) : step s = exec (decode w) s.accept := by
  simp [step, hrst, (cmdReady_iff s).2 hidle, hw]

/-- An idle block with nothing on the command port only lets the lines move on. -/
theorem step_pause {s : State} (hrst : s.rst.level = false) (hidle : s.phase = .idle) (hw : s.presented = none) :
    step s = .next s.clock := by
  simp [step, hrst, (cmdReady_iff s).2 hidle, hw]

/-- A busy block goes on with its poll. -/
theorem step_busy {s : State} (hrst : s.rst.level = false) (hbusy : s.phase ≠ .idle) :
    step s = .next (s.clock.sequencerStep s.tick.level) := by
  simp [step, hrst, (cmdReady_eq_false_iff s).2 hbusy]

/-- Settles O6: `accept` writes those four fields, the host's list losing its first word. -/
theorem idleStepRunsThePresentedCommand : Obligations.IdleStepRunsThePresentedCommand := by
  intro s w cs hrst hidle hcmds
  rw [step_accept hrst hidle (presented_eq_some.2 ⟨cs, hcmds⟩)]
  simp only [State.accept, State.clock, hcmds, List.tail_cons]

theorem presented_withFetchWord (s : State) (nbits w : Nat) :
    (s.withFetchWord nbits w).presented = some (BitVec.ofNat 20 (w % 2 ^ nbits)) := rfl

/-- Settles O5: the placed state presents the word to an idle block with `rst` low, whatever the state was before. -/
theorem placedWordRunsNext : Obligations.PlacedWordRunsNext := by
  intro s nbits w hbits hport
  refine ⟨_, decodeTableWord_eq hbits hport, step_accept rfl rfl ?_⟩
  rw [presented_withFetchWord, Nat.mod_eq_of_lt hbits]

/-! ### Acceptance in IDLE alone -/

/-- No command stops the machine (60_exceptions.md R99). -/
theorem exec_goesOn (i : Instr) (s : State) : ∃ t, exec i s = .next t := by
  cases i <;> exact ⟨_, rfl⟩

/-- No command takes a word from the host: that was done when it was accepted. -/
theorem exec_cmds {i : Instr} {s t : State} (h : exec i s = .next t) : t.cmds = s.cmds := by
  obtain ⟨-, rfl⟩ | ⟨v, -, rfl⟩ | ⟨-, -, r, rfl⟩ := exec_cases h <;> rfl

/-- The state with `cs` in place of what the host presents. -/
def State.withCmds (s : State) (cs : List (Option Word)) : State := { s with cmds := cs }

theorem seqCkLo_withCmds (s : State) (cs : List (Option Word)) :
    seqCkLo (s.withCmds cs) = (seqCkLo s).withCmds cs := by
  simp only [seqCkLo, seqBitDone, apply_ite (State.withCmds · cs)]
  rfl

/-- The sequencer neither reads nor writes what the host presents. -/
theorem seqPhase_withCmds (s : State) (cs : List (Option Word)) :
    seqPhase (s.withCmds cs) = (seqPhase s).withCmds cs := by
  have hphase : (s.withCmds cs).phase = s.phase := rfl
  unfold seqPhase
  rw [hphase]
  cases s.phase
  case ckLo => exact seqCkLo_withCmds s cs
  all_goals rfl

/-- What a busy step does does not depend on what the host presents, and leaves it (30_encoding.md R47). -/
theorem sequencerStep_withCmds (s : State) (cs : List (Option Word)) (tick : Bool) :
    (s.withCmds cs).sequencerStep tick = (s.sequencerStep tick).withCmds cs := by
  by_cases hhold : s.hold = 0#16
  · rw [sequencerStep_free hhold, sequencerStep_free (s := s.withCmds cs) hhold, seqPhase_withCmds]
  · rw [sequencerStep_holding hhold, sequencerStep_holding (s := s.withCmds cs) hhold]
    rfl

theorem sequencerStep_cmds (s : State) (tick : Bool) : (s.sequencerStep tick).cmds = s.cmds :=
  (congrArg State.cmds (sequencerStep_withCmds s s.cmds tick) :)

/-- A busy block takes the same step whatever word waits, and that word goes on waiting. -/
theorem step_withCmds_of_busy {s : State} (hrst : s.rst.level = false) (hbusy : s.phase ≠ .idle) (w : Word)
    (cs : List (Option Word)) :
    step (s.withCmds (some w :: cs)) = .next ((s.clock.sequencerStep s.tick.level).withCmds (some w :: cs)) := by
  rw [step_busy (s := s.withCmds (some w :: cs)) hrst hbusy, ← sequencerStep_withCmds]
  rfl

/-- Settles O7: the three cases are an accepted command, a busy step, which does not touch the host's list, and a
pause. -/
theorem commandsAreAcceptedOnlyInIdle : Obligations.CommandsAreAcceptedOnlyInIdle := by
  intro s
  rw [cmdReady_iff, cmdReady_eq_false_iff]
  refine ⟨Iff.rfl, fun hrst => ⟨fun w cs hidle hcmds => ?_, fun w w' cs hbusy hcmds => ?_, fun hidle hw => ?_⟩⟩
  · obtain ⟨t, ht⟩ := exec_goesOn (decode w) s.accept
    have hrest : t.cmds = cs := by rw [exec_cmds ht, State.accept_cmds, hcmds, List.tail_cons]
    exact ⟨t, (step_accept hrst hidle (presented_eq_some.2 ⟨cs, hcmds⟩)).trans ht, ht, hrest⟩
  · refine ⟨_, step_busy hrst hbusy, ?_, ?_⟩
    · rw [sequencerStep_cmds, State.clock_cmds, hcmds, waiting_some]
    · exact step_withCmds_of_busy hrst hbusy w' cs
  · refine ⟨_, step_pause hrst hidle hw, ?_⟩
    simp [SameBlock, SameVectors, SameSequencer, SamePins, StepFrame, NoSample, NoResponse]

/-! ### When a response is given -/

/-- The last step of a poll, with no hold running (40_poll.md R68). -/
def State.AtPollEnd (s : State) : Prop := s.phase = .ckLo ∧ s.hold = 0#16 ∧ s.oClk = false ∧ s.idx = 0

/-- The coming step gives a response (30_encoding.md R52). -/
def State.ResponseDue (s : State) : Prop :=
  s.rst.level = false ∧ ((s.phase = .idle ∧ ∃ w, s.presented = some w ∧ decode w ≠ .poll) ∨ s.AtPollEnd)

/-- `POLL` gives no response when it is accepted; every other command gives one, and the block stays as idle as it
was. -/
theorem exec_response {i : Instr} {s t : State} (hrsp : s.rsp = none) (h : exec i s = .next t) :
    (i = .poll ∧ NoResponse s t) ∨ (i ≠ .poll ∧ t.phase = s.phase ∧ ∃ r, Responds s t r) := by
  obtain ⟨hpoll, rfl⟩ | ⟨v, rfl, rfl⟩ | ⟨hpoll, -, r, rfl⟩ := exec_cases h
  · exact .inl ⟨hpoll, hrsp, rfl⟩
  · exact .inr ⟨nofun, rfl, _, rfl, rfl⟩
  · exact .inr ⟨hpoll, rfl, r, rfl, rfl⟩

/-- The sequencer gives a response at the end of the poll and nowhere else. -/
theorem seqPhase_response {s : State} (hrsp : s.rsp = none) (hhold : s.hold = 0#16) :
    (¬ s.AtPollEnd ∧ NoResponse s (seqPhase s)) ∨
    (s.AtPollEnd ∧ (seqPhase s).phase = .idle ∧ ∃ r, Responds s (seqPhase s) r) := by
  apply seqPhase_elim
    (motive := fun t => (¬ s.AtPollEnd ∧ NoResponse s t) ∨ (s.AtPollEnd ∧ t.phase = .idle ∧ ∃ r, Responds s t r))
  case pollEnds => exact fun hp hc hi => .inr ⟨⟨hp, hhold, hc, hi⟩, rfl, _, rfl, rfl⟩
  case clockFalls => exact fun _ hc => .inl ⟨fun ⟨_, _, hc', _⟩ => by simp [hc] at hc', hrsp, rfl⟩
  case nextBit => exact fun _ _ hi => .inl ⟨fun ⟨_, _, _, hi'⟩ => hi hi', hrsp, rfl⟩
  all_goals exact fun hp => .inl ⟨fun ⟨hp', _⟩ => by simp [hp] at hp', hrsp, rfl⟩

/-- A busy step gives a response at the end of the poll and nowhere else: none while a hold runs. -/
theorem sequencerStep_response {s : State} (hrsp : s.rsp = none) (tick : Bool) :
    (¬ s.AtPollEnd ∧ NoResponse s (s.sequencerStep tick)) ∨
    (s.AtPollEnd ∧ (s.sequencerStep tick).phase = .idle ∧ ∃ r, Responds s (s.sequencerStep tick) r) := by
  by_cases hhold : s.hold = 0#16
  · rw [sequencerStep_free hhold]
    exact seqPhase_response hrsp hhold
  · rw [sequencerStep_holding hhold]
    exact .inl ⟨fun ⟨_, hhold', _⟩ => hhold hhold', hrsp, rfl⟩

/-- A step gives one response where one is due, and leaves the block idle then; elsewhere it gives none. -/
theorem step_response {s t : State} (h : step s = .next t) :
    (¬ s.ResponseDue ∧ NoResponse s t) ∨ (s.ResponseDue ∧ t.phase = .idle ∧ ∃ r, Responds s t r) := by
  obtain ⟨hrst, rfl⟩ | ⟨hrst, hidle, hw, rfl⟩ | ⟨w, hrst, hidle, hw, hexec⟩ | ⟨hrst, hbusy, rfl⟩ := step_cases h
  · exact .inl ⟨by simp [State.ResponseDue, hrst], rfl, rfl⟩
  · exact .inl ⟨by simp [State.ResponseDue, State.AtPollEnd, hidle, hw], rfl, rfl⟩
  · have hdue : s.ResponseDue ↔ decode w ≠ .poll := by
      simp [State.ResponseDue, State.AtPollEnd, hrst, hidle, hw]
    rw [hdue]
    obtain ⟨hpoll, hno⟩ | ⟨hpoll, hphase, hr⟩ := exec_response (s := s.accept) rfl hexec
    · exact .inl ⟨not_not.2 hpoll, hno⟩
    · exact .inr ⟨hpoll, hphase.trans hidle, hr⟩
  · have hdue : s.ResponseDue ↔ s.AtPollEnd := by simp [State.ResponseDue, hrst, hbusy]
    rw [hdue]
    exact sequencerStep_response (s := s.clock) rfl s.tick.level

/-- Settles O49: `rsp_valid` and the record of responses are read off the two cases of `step_response`. -/
theorem responsesComeExactlyWhenDue : Obligations.ResponsesComeExactlyWhenDue := by
  intro s t h
  obtain ⟨hdue, hrsp, hrec⟩ | ⟨hdue, hidle, r, hrsp, hrec⟩ := step_response h
  · have hvalid : ¬ t.rspValid = true := by simp [State.rspValid, hrsp]
    exact ⟨by simp [hrsp, hrec], iff_of_false hvalid hdue, fun hv => absurd hv hvalid⟩
  · have hvalid : t.rspValid = true := by simp [State.rspValid, hrsp]
    exact ⟨by simp [hrsp, hrec], iff_of_true hvalid hdue, fun _ => hidle⟩

/-! ### What a response carries -/

/-- Status code 3 is no status (30_encoding.md R51). -/
theorem Status.code_ne_three (st : Status) : st.code ≠ 3#2 := by
  cases st <;> decide

/-- With a status other than `OK` the response is all zeros (30_encoding.md R50). -/
def Response.ZerosOnFault (r : Response) (width : Nat) : Prop :=
  r.status ≠ .ok → r.data = 0#16 ∧ r.vec = zeros width

theorem Response.ZerosOnFault.of_ok {r : Response} (h : r.status = .ok) (width : Nat) : r.ZerosOnFault width :=
  absurd h

theorem indexedQuery_zerosOnFault {s : State} {i : Nat} {b : Bool} {r : Response}
    (hr : (s.indexedQuery i b).rsp = some r) : r.ZerosOnFault s.width := by
  rcases Nat.lt_or_ge i s.width with hi | hi
  · rw [indexedQuery_inRange hi] at hr
    cases hr
    exact .of_ok rfl _
  · rw [indexedQuery_outOfRange hi] at hr
    cases hr
    exact fun _ => ⟨rfl, rfl⟩

/-- A command that faults answers zeros: an indexed query out of range, or a reserved word. -/
theorem exec_zerosOnFault {i : Instr} {s t : State} {r : Response} (hrsp : s.rsp = none) (h : exec i s = .next t)
    (hr : t.rsp = some r) : r.ZerosOnFault s.width := by
  cases i <;> cases h
  case poll => cases hrsp.symm.trans hr
  case state | last | changed | pressed | released => exact indexedQuery_zerosOnFault hr
  case changedAny | rawState | getPw | setPw =>
    cases hr
    exact .of_ok rfl _
  all_goals
    cases hr
    exact fun _ => ⟨rfl, rfl⟩

/-- The one response of the sequencer is that of the end of a poll, and it carries the new frame (40_poll.md R68). -/
theorem seqPhase_rsp {s : State} (hrsp : s.rsp = none) :
    (seqPhase s).rsp = none ∨ (seqPhase s).rsp = some ⟨.ok, 0#16, s.cur⟩ := by
  apply seqPhase_elim (motive := fun t => t.rsp = none ∨ t.rsp = some ⟨.ok, 0#16, s.cur⟩)
  case pollEnds => exact fun _ _ _ => .inr rfl
  all_goals
    intros
    exact .inl hrsp

/-- The sequencer cannot fault (60_exceptions.md R99). -/
theorem sequencerStep_status {s : State} {tick : Bool} {r : Response} (hrsp : s.rsp = none)
    (hr : (s.sequencerStep tick).rsp = some r) : r.status = .ok := by
  by_cases hhold : s.hold = 0#16
  · rw [sequencerStep_free hhold] at hr
    obtain hnone | hok := seqPhase_rsp hrsp
    · cases hnone.symm.trans hr
    · cases hok.symm.trans hr
      rfl
  · rw [sequencerStep_holding hhold] at hr
    cases hrsp.symm.trans hr

/-- A step that responds with a fault responds with zeros. -/
theorem step_zerosOnFault {s t : State} {r : Response} (h : step s = .next t) (hr : t.rsp = some r) :
    r.ZerosOnFault s.width := by
  obtain ⟨-, rfl⟩ | ⟨-, -, -, rfl⟩ | ⟨w, -, -, -, hexec⟩ | ⟨-, -, rfl⟩ := step_cases h
  · cases hr
  · cases hr
  · exact exec_zerosOnFault (s := s.accept) rfl hexec hr
  · exact .of_ok (sequencerStep_status (s := s.clock) rfl hr) _

/-- The response on the ports is the newest on record, so its vector has `WIDTH` elements. -/
theorem State.Inv.rsp_vec_length {s : State} {r : Response} (hs : s.Inv) (hr : s.rsp = some r) :
    r.vec.length = s.width := by
  obtain ⟨⟨-, -, -, -, -, hresponses⟩, -, -, hnewest, -⟩ := hs
  obtain hnone | hlast := hnewest
  · cases hnone.symm.trans hr
  · exact hresponses r (List.mem_of_getLast? (hlast.symm.trans hr))

/-- Settles O50: the length is the invariant's, which the step keeps, and the zeros are those of the commands that
fault. -/
theorem faultResponsesCarryZeros : Obligations.FaultResponsesCarryZeros := by
  intro s t r hs h hr
  have hlength : r.vec.length = t.width := (everyStepKeepsTheInvariant s t hs h).rsp_vec_length hr
  have hwidth : t.width = s.width := congrArg Config.width (step_chipCount h)
  exact ⟨r.status.code_ne_three, hlength.trans hwidth, step_zerosOnFault h hr⟩

end Sys2Proof.Machine
end

