-- ==== Sys2Proof/Proofs/Poll.lean ====
section
/-! PROOFS. The command `POLL` (40_poll.md): its acceptance, the sequencer's steps one by one, the pin trace and the
decode function, and a poll as a whole, which from acceptance runs through all its bits to the one response. -/

namespace Sys2Proof.Machine

open Sys2Proof

/-! ### The steps of the sequencer -/

/-- Settles O27: the frame latch is the whole effect of the command. -/
theorem pollLatchesTheFrame : Obligations.PollLatchesTheFrame := by
  intro s
  refine ⟨_, rfl, ?_⟩
  simp [zeros, State.cmdReady, SamePins, SameOutside]

section

variable {s : State}

theorem seqPhase_ceHi (hp : s.phase = .ceHi) : seqPhase s = (s.out .ce true).goto .ldLo := by
  simp [seqPhase, hp, seqCeHi]

theorem seqPhase_ldLo (hp : s.phase = .ldLo) : seqPhase s = (s.out .load false).wait.goto .ldHi := by
  simp [seqPhase, hp, seqLdLo]

theorem seqPhase_ldHi (hp : s.phase = .ldHi) : seqPhase s = (s.out .load true).wait.goto .ceLo := by
  simp [seqPhase, hp, seqLdHi]

theorem seqPhase_ceLo (hp : s.phase = .ceLo) : seqPhase s = (s.out .ce false).goto .sample := by
  simp [seqPhase, hp, seqCeLo]

theorem seqPhase_sample (hp : s.phase = .sample) : seqPhase s = s.takeSample.goto .ckHi := by
  simp [seqPhase, hp, seqSample]

theorem seqPhase_ckHi (hp : s.phase = .ckHi) : seqPhase s = (s.out .clk true).wait.goto .ckLo := by
  simp [seqPhase, hp, seqCkHi]

/-- `CK_LO` before its hold. -/
theorem seqPhase_clockFalls (hp : s.phase = .ckLo) (hclk : s.oClk = true) :
    seqPhase s = (s.out .clk false).wait := by
  simp [seqPhase, hp, seqCkLo, hclk]

/-- `CK_LO` after its hold, with bits still to come. -/
theorem seqPhase_nextBit (hp : s.phase = .ckLo) (hclk : s.oClk = false) (hidx : s.idx ≠ 0) :
    seqPhase s = s.countDown.goto .sample := by
  simp [seqPhase, hp, seqCkLo, hclk, seqBitDone, hidx]

/-- `CK_LO` after its hold, with the frame complete. -/
theorem seqPhase_pollEnds (hp : s.phase = .ckLo) (hclk : s.oClk = false) (hidx : s.idx = 0) :
    seqPhase s = (s.respond ⟨.ok, 0#16, s.cur⟩).goto .idle := by
  simp [seqPhase, hp, seqCkLo, hclk, seqBitDone, hidx]

/-- With `rst` low and no hold running, a step from a busy phase is that phase's step. -/
theorem step_of_seqPhase {u : State} {ph : Phase} (hrst : s.rst.level = false) (hhold : s.hold = 0#16)
    (hp : s.phase = ph) (hph : ph ≠ .idle) (h : seqPhase s.clock = u) : step s = .next u :=
  h ▸ step_sequencer hrst (hp ▸ hph) hhold

end

/-- Settles O28: both steps write the clock-enable line and load no hold. -/
theorem clockEnableSteps : Obligations.ClockEnableSteps := by
  intro s hrst hhold
  refine ⟨fun hp => ⟨_, step_of_seqPhase hrst hhold hp nofun (seqPhase_ceHi hp), ?_⟩,
    fun hp => ⟨_, step_of_seqPhase hrst hhold hp nofun (seqPhase_ceLo hp), ?_⟩⟩ <;>
  simp [hhold, SameVectors, StepFrame, NoSample, NoResponse]

/-- Settles O29: both steps write the load line and load the hold with `pw`. -/
theorem loadPulseSteps : Obligations.LoadPulseSteps := by
  intro s hrst hhold
  refine ⟨fun hp => ⟨_, step_of_seqPhase hrst hhold hp nofun (seqPhase_ldLo hp), ?_⟩,
    fun hp => ⟨_, step_of_seqPhase hrst hhold hp nofun (seqPhase_ldHi hp), ?_⟩⟩ <;>
  simp [SameVectors, StepFrame, NoSample, NoResponse]

/-- Settles O30: no hold runs in `SAMPLE`, and `idx` is a position of `cur`, so the bit written there is read back. -/
theorem sampleStoresOneBit : Obligations.SampleStoresOneBit := by
  intro s ⟨⟨_, _, hcur, _, hidx, _⟩, hseq, _⟩ hrst hp
  have hhold : s.hold = 0#16 := hseq.hold_eq_zero (by simp [State.mayHold, hp])
  refine ⟨_, s.dataLevel, step_of_seqPhase hrst hhold hp nofun (seqPhase_sample hp), rfl, ?_, fun i hi => ?_, ?_⟩
  · exact readBit_writeBit_same (hcur ▸ hidx) s.dataLevel
  · exact getElem?_writeBit_other s.cur hi s.dataLevel
  · refine ⟨rfl, rfl, rfl, rfl, ?_⟩
    simp [SamePins, StepFrame, NoResponse]

/-- Settles O31: the step writes the clock line and loads the hold with `pw`. -/
theorem clockHighStep : Obligations.ClockHighStep := by
  intro s hrst hhold hp
  refine ⟨_, step_of_seqPhase hrst hhold hp nofun (seqPhase_ckHi hp), ?_⟩
  simp [SameVectors, StepFrame, NoSample, NoResponse]

/-- Settles O32: the three clauses are the three parts of `CK_LO`, told apart by the clock level and `idx`. -/
theorem clockLowStep : Obligations.ClockLowStep := by
  intro s hrst hhold hp
  refine ⟨fun hclk => ⟨_, step_of_seqPhase hrst hhold hp nofun (seqPhase_clockFalls hp hclk), ?_⟩,
    fun hclk hidx => ⟨_, step_of_seqPhase hrst hhold hp nofun (seqPhase_nextBit hp hclk hidx), ?_⟩,
    fun hclk hidx => ⟨_, step_of_seqPhase hrst hhold hp nofun (seqPhase_pollEnds hp hclk hidx), ?_⟩⟩
  · simp [hp, SameVectors, StepFrame, NoSample, NoResponse]
  · simp [hhold, SamePins, SameVectors, StepFrame, NoSample, NoResponse]
  · simp [hidx, hhold, SamePins, SameVectors, StepFrame, NoSample, Responds]

/-! ### The next phase -/

/-- Of the commands `POLL` alone leaves `IDLE` (40_poll.md R73). -/
theorem exec_phase {i : Instr} {s t : State} (h : exec i s = .next t) :
    t.phase = if i = .poll then .ceHi else s.phase := by
  obtain ⟨rfl, rfl⟩ | ⟨v, rfl, rfl⟩ | ⟨hpoll, -, r, rfl⟩ := exec_cases h
  · rfl
  · rfl
  · exact (if_neg hpoll).symm

/-- Settles O35: `exec_phase` says the row of `IDLE`, and each other row is the phase that the sequencer's step goes to,
or the phase at hand while a hold runs. -/
theorem phaseFollowsTheNextPhaseTable : Obligations.PhaseFollowsTheNextPhaseTable := by
  intro s t hrst h
  obtain ⟨hhigh, -⟩ | ⟨-, hidle, hw, rfl⟩ | ⟨w, -, hidle, hw, hexec⟩ | ⟨-, hbusy, rfl⟩ := step_cases h
  · exact absurd (hrst.symm.trans hhigh) Bool.false_ne_true
  · simp [hidle, hw]
  · simp [hidle, hw, exec_phase hexec]
  · by_cases hhold : s.hold = 0#16
    · rw [sequencerStep_free (s := s.clock) hhold, if_neg fun ⟨_, hne⟩ => hne hhold]
      apply seqPhase_elim (motive := fun t => t.phase = _) s.clock
      case idle => exact fun hp => absurd hp hbusy
      case clockFalls =>
        intro (hp : s.phase = .ckLo) (hclk : s.oClk = true)
        simp [hp, hclk]
      case pollEnds | nextBit =>
        intro (hp : s.phase = .ckLo) (hclk : s.oClk = false) hidx
        rw [State.clock_idx] at hidx
        simp [hp, hclk, hidx]
      all_goals
        intro (hp : s.phase = _)
        simp [hp]
    · rw [sequencerStep_holding (s := s.clock) hhold, if_pos ⟨hbusy, hhold⟩]
      rfl

/-! ### The pin trace and the decode function -/

/-- The events of the bits of a poll, counted (40_poll.md R69). -/
theorem bitTraces_counts (P : Arg) (S : Bits) :
    (S.flatMap (bitTrace P)).length = 5 * S.length ∧
    (S.flatMap (bitTrace P)).countP PinEvent.isOut = 2 * S.length ∧
    (S.flatMap (bitTrace P)).filterMap PinEvent.sample? = S ∧
    (S.flatMap (bitTrace P)).filterMap PinEvent.wait? = List.replicate (2 * S.length) P := by
  induction S with
  | nil => simp
  | cons b S ih =>
    obtain ⟨hlen, hout, hsample, hwait⟩ := ih
    rw [List.flatMap_cons, List.length_append, List.countP_append, List.filterMap_append, List.filterMap_append,
      hlen, hout, hsample, hwait, List.length_cons, Nat.mul_succ, Nat.mul_succ]
    exact ⟨Nat.add_comm _ _, Nat.add_comm _ _, rfl, rfl⟩

/-- Settles O37: the frame latch has six events, four `Out`s and two `Wait`s, and the bits have the rest. -/
theorem pollTraceCounts : Obligations.PollTraceCounts := by
  intro P S
  obtain ⟨hlen, hout, hsample, hwait⟩ := bitTraces_counts P S
  dsimp only
  rw [pollTrace, List.length_append, List.countP_append, List.filterMap_append, List.filterMap_append,
    hlen, hout, hsample, hwait, Nat.add_comm 2]
  exact ⟨rfl, rfl, rfl, rfl⟩

/-- The last sample is the bit of weight one (40_poll.md R70). -/
theorem bitsToNat_decodeSamples (S : Bits) :
    bitsToNat (decodeSamples S) = S.foldl (fun x b => 2 * x + b.toNat) 0 := by
  induction S using List.reverseRecOn with
  | nil => rfl
  | append_singleton S b ih =>
    rw [List.foldl_append, ← ih, decodeSamples, List.reverse_append]
    exact Nat.add_comm _ _

/-- Sample `k` goes to position `W - 1 - k`. -/
theorem getElem?_decodeSamples {S : Bits} {k : Nat} (hk : k < S.length) :
    (decodeSamples S)[S.length - 1 - k]? = S[k]? := by
  rw [decodeSamples, List.getElem?_reverse (by omega)]
  congr 1
  omega

/-- Settles O36: in chip terms position `W - 1 - k` is bit `7 - k % 8` of chip `CHIP_COUNT - 1 - k / 8`. -/
theorem decodeIsMostSignificantFirst : Obligations.DecodeIsMostSignificantFirst := by
  intro c S hS
  refine ⟨decodeSamples_length S, fun k hk => ⟨getElem?_decodeSamples hk, ?_⟩, bitsToNat_decodeSamples S⟩
  have hpos : 8 * (c - 1 - k / 8) + (7 - k % 8) = S.length - 1 - k := by
    rw [Config.width] at hS
    omega
  rw [getElem?_chipBits _ _ (by omega), hpos, getElem?_decodeSamples hk]

/-! ### A poll as a whole -/

/-- The state without what the outside drives and with no hold running: what the sequencer works on. -/
def State.rested (s : State) : State := { s.inside with hold := 0#16 }

theorem seqCkLo_rested (s : State) : (seqCkLo s.rested).rested = (seqCkLo s).rested := by
  have hclk : s.rested.oClk = s.oClk := rfl
  have hidx : s.rested.idx = s.idx := rfl
  simp only [seqCkLo, seqBitDone, hclk, hidx]
  split_ifs <;>
  simp [State.rested, State.inside, State.out, State.wait, State.goto, State.countDown, State.respond]

/-- What the sequencer does inside depends neither on what the outside drives nor on the hold. -/
theorem seqPhase_rested (s : State) : (seqPhase s.rested).rested = (seqPhase s).rested := by
  have hphase : s.rested.phase = s.phase := rfl
  unfold seqPhase
  rw [hphase]
  cases s.phase
  case ckLo => exact seqCkLo_rested s
  all_goals simp [State.rested, State.inside, State.out, State.wait, State.goto, State.takeSample, State.dataLevel,
    seqCeHi, seqLdLo, seqLdHi, seqCeLo, seqSample, seqCkHi]

/-- `t` is `u` at rest: the registers, the samples still to come and the records are those of `u`, and no hold runs. -/
structure RestsAs (t u : State) : Prop where
  chipCount : t.chipCount = u.chipCount
  cur : t.cur = u.cur
  prev : t.prev = u.prev
  pw : t.pw = u.pw
  phase : t.phase = u.phase
  idx : t.idx = u.idx
  oLoad : t.oLoad = u.oLoad
  oClk : t.oClk = u.oClk
  oCe : t.oCe = u.oCe
  hold : t.hold = 0#16
  data : t.data = u.data
  draws : t.draws = u.draws
  responses : t.responses = u.responses
  trace : t.trace = u.trace

theorem RestsAs.of_inside_eq {t u : State} (h : t.inside = u.rested) : RestsAs t u := by
  simp only [State.inside, State.rested, State.mk.injEq] at h
  constructor <;> simp [h]

/-- With no reset and a live time reference, some run from `s` comes to where the block is `u` at rest. -/
def RunsTo (s u : State) : Prop := ∃ n t, Reaches s n t ∧ t.Undisturbed ∧ t.inside = u.rested

theorem RunsTo.refl {s : State} (h : s.Undisturbed) (hhold : s.hold = 0#16) : RunsTo s s :=
  ⟨0, s, rfl, h, by simp [State.rested, State.inside, hhold]⟩

theorem RunsTo.of_rested_eq {s u u' : State} (h : RunsTo s u) (he : u.rested = u'.rested) : RunsTo s u' :=
  let ⟨n, t, hrun, ht, hi⟩ := h
  ⟨n, t, hrun, ht, hi.trans he⟩

/-- A run goes on by one step of the sequencer and the hold that this step begins. -/
theorem RunsTo.step {s u v : State} (h : RunsTo s u) (hseq : seqPhase u = v) (hp : u.phase ≠ .idle)
    (hp' : v.phase ≠ .idle) : RunsTo s v := by
  subst hseq
  obtain ⟨m, t, hrun, ht, hi⟩ := h
  have hphase : (seqPhase u.rested).phase = (seqPhase u).phase := (congrArg State.phase (seqPhase_rested u) :)
  obtain ⟨n, t', hrun', ht', hi'⟩ := step_and_hold hi ht hp rfl (hphase ▸ hp')
  exact ⟨m + n, t', hrun.trans hrun', ht', hi'.trans (seqPhase_rested u)⟩

/-- The frame latch of the external chips, from `CE_HI` to the first `SAMPLE` (40_poll.md R61 to R64). -/
def State.latched (u : State) : State :=
  { u with
    phase := .sample
    oLoad := true
    oCe := false
    trace := u.trace ++ pollTrace u.pw [] }

theorem RunsTo.latched {s u : State} (h : RunsTo s u) (hp : u.phase = .ceHi) : RunsTo s u.latched := by
  have hldLo := h.step (seqPhase_ceHi hp) (hp ▸ nofun) nofun
  have hldHi := hldLo.step (seqPhase_ldLo rfl) nofun nofun
  have hceLo := hldHi.step (seqPhase_ldHi rfl) nofun nofun
  have hsample := hceLo.step (seqPhase_ceLo rfl) nofun nofun
  refine hsample.of_rested_eq ?_
  simp [State.latched, State.rested, State.inside, State.out, State.wait, State.goto, pollTrace]

/-- One bit, from `SAMPLE` to the end of its last hold (40_poll.md R65, R67, R68). -/
def State.bitTaken (u : State) : State :=
  { u with
    phase := .ckLo
    oClk := false
    cur := writeBit u.cur u.idx u.dataLevel
    data := u.data.tail
    draws := u.draws + 1
    trace := u.trace ++ bitTrace u.pw u.dataLevel }

theorem RunsTo.bitTaken {s u : State} (h : RunsTo s u) (hp : u.phase = .sample) : RunsTo s u.bitTaken := by
  have hckHi := h.step (seqPhase_sample hp) (hp ▸ nofun) nofun
  have hckLo := hckHi.step (seqPhase_ckHi rfl) nofun nofun
  have hfall := hckLo.step (seqPhase_clockFalls rfl rfl) nofun nofun
  refine hfall.of_rested_eq ?_
  simp [State.bitTaken, State.rested, State.inside, State.takeSample, State.out, State.wait, State.goto, bitTrace]

/-- The next `n` bits, down to position 0, with `v` above them. -/
def State.bitsTaken (u : State) (n : Nat) (v : Bits) : State :=
  let S := answersFrom u.data u.draws n
  { u with
    phase := .ckLo
    idx := 0
    oClk := false
    cur := decodeSamples S ++ v
    data := u.data.drop n
    draws := u.draws + n
    trace := u.trace ++ S.flatMap (bitTrace u.pw) }

theorem bitsTaken_one {u : State} {v : Bits} (hidx : u.idx = 0) (hcur : u.cur = zeros 1 ++ v) :
    u.bitsTaken 1 v = u.bitTaken := by
  simp [State.bitTaken, State.bitsTaken, hidx, hcur, answersFrom, decodeSamples, State.dataLevel, zeros, writeBit]

theorem bitsTaken_succ {u : State} {k : Nat} (v : Bits) :
    u.bitsTaken (k + 1) v = (u.bitTaken.countDown.goto .sample).bitsTaken k (u.dataLevel :: v) := by
  simp [State.bitTaken, State.bitsTaken, State.countDown, State.goto, answersFrom_succ, decodeSamples, State.dataLevel,
    Nat.add_comm 1, Nat.add_assoc]

/-- The loop of the sequencer, by induction on `idx`: the positions above it hold the samples taken so far
(40_poll.md R73). -/
theorem RunsTo.bitsTaken {s u : State} {k : Nat} {v : Bits} (h : RunsTo s u) (hp : u.phase = .sample)
    (hidx : u.idx = k) (hcur : u.cur = zeros (k + 1) ++ v) : RunsTo s (u.bitsTaken (k + 1) v) := by
  induction k generalizing u v with
  | zero => exact bitsTaken_one hidx hcur ▸ h.bitTaken hp
  | succ k ih =>
    rw [bitsTaken_succ]
    have hnext : u.bitTaken.idx ≠ 0 := hidx ▸ Nat.succ_ne_zero k
    refine ih ((h.bitTaken hp).step (seqPhase_nextBit rfl rfl hnext) nofun nofun) rfl ?_ ?_
    · exact congrArg (· - 1) hidx
    · exact (congrArg₂ (writeBit · · _) hcur hidx).trans (writeBit_fill (k + 1) v _)

/-- The poll accepted in `s`, all bits taken and the last hold over: what is left is the response (40_poll.md R59). -/
def State.polled (s : State) : State :=
  { s with
    prev := s.cur
    cur := decodeSamples s.samples
    phase := .ckLo
    idx := 0
    oLoad := true
    oClk := false
    oCe := false
    data := s.data.drop s.width
    draws := s.draws + s.width
    trace := s.trace ++ pollTrace s.pw s.samples }

/-- The poll accepted in `s` when it is over, its response given. -/
def State.completed (s : State) : State := (s.polled.respond ⟨.ok, 0#16, decodeSamples s.samples⟩).goto .idle

/-- From the acceptance of a `POLL` all steps but the last, which gives the response. -/
theorem runsTo_polled {s : State} (hs : s.Inv) (hgo : s.PollGoesAhead) :
    RunsTo (s.accept.latchFrame.goto .ceHi) s.polled := by
  have ⟨⟨hmin, _⟩, _⟩ := hs
  obtain ⟨hidle, -, hrst, htick⟩ := hgo
  have hstart := RunsTo.refl (s := s.accept.latchFrame.goto .ceHi) ⟨hrst.pop, htick⟩ (hs.hold_eq_zero_of_idle hidle)
  have hwidth : s.width - 1 + 1 = s.width := Nat.sub_add_cancel (Nat.mul_pos hmin (by decide))
  have hbits := (hstart.latched rfl).bitsTaken (k := s.width - 1) (v := []) rfl rfl (by
    rw [hwidth, List.append_nil]
    rfl)
  refine hbits.of_rested_eq ?_
  rw [hwidth]
  simp [State.polled, State.bitsTaken, State.latched, State.rested, State.inside, State.accept, State.clock,
    State.latchFrame, State.goto, State.samples, pollTrace]

/-- The last step of a poll (40_poll.md R68). -/
theorem step_pollEnds {s : State} (hrst : s.rst.level = false) (hend : s.AtPollEnd) :
    step s = .next ((s.clock.respond ⟨.ok, 0#16, s.cur⟩).goto .idle) :=
  let ⟨hp, hhold, hclk, hidx⟩ := hend
  step_of_seqPhase hrst hhold hp nofun (seqPhase_pollEnds hp hclk hidx)

/-! ### A word that waits for the end of a poll -/

/-- No step takes a response off the record. -/
theorem Reaches.responses_isPrefix {s t : State} {n : Nat} (h : Reaches s n t) : s.responses <+: t.responses :=
  h.preserves (P := fun u => s.responses <+: u.responses)
    (fun u v hu hv => hu.trans ⟨_, (responsesComeExactlyWhenDue u v hv).1.symm⟩) (List.prefix_refl _)

theorem sequencerStep_rst (s : State) (tick : Bool) : (s.sequencerStep tick).rst = s.rst := by
  by_cases hhold : s.hold = 0#16
  · obtain ⟨-, -, -, hrst, -⟩ := seqPhase_keeps s
    rw [sequencerStep_free hhold, hrst]
  · rw [sequencerStep_holding hhold, State.passTime_rst]

/-- Without a response the poll is not over (40_poll.md R68). -/
theorem sequencerStep_busy {s : State} {tick : Bool} (hbusy : s.phase ≠ .idle)
    (hresp : (s.sequencerStep tick).responses = s.responses) : (s.sequencerStep tick).phase ≠ .idle := by
  by_cases hhold : s.hold = 0#16
  · rw [sequencerStep_free hhold] at hresp ⊢
    revert hresp
    apply seqPhase_elim (motive := fun t => t.responses = s.responses → t.phase ≠ .idle)
    case idle => exact fun _ _ => hbusy
    case clockFalls => exact fun _ _ _ => hbusy
    case pollEnds => simp
    all_goals
      intros
      nofun
  · rw [sequencerStep_holding hhold]
    exact hbusy

/-- In a run without a response and without a reset, a busy block stays busy, and what the host presents waits
(30_encoding.md R47). -/
theorem Reaches.cmds_eq_of_responses_eq {s t : State} {n : Nat} (h : Reaches s n t) (hbusy : s.phase ≠ .idle)
    (hrst : s.rst.AlwaysLow) (hwait : waiting s.cmds = s.cmds) (hresp : t.responses = s.responses) :
    t.cmds = s.cmds := by
  induction n generalizing s with
  | zero => rw [(reaches_zero s t).1 h]
  | succ n ih =>
    obtain ⟨u, hu, hrun⟩ := h
    have hstep : Reaches s 1 u := ⟨u, hu, rfl⟩
    have hsame : u.responses = s.responses :=
      (hresp ▸ hrun.responses_isPrefix).eq_of_length_le hstep.responses_isPrefix.length_le
    rw [step_busy hrst.level hbusy] at hu
    cases hu
    have hcmds : (s.clock.sequencerStep s.tick.level).cmds = s.cmds := (sequencerStep_cmds _ _).trans hwait
    have hlow : (s.clock.sequencerStep s.tick.level).rst.AlwaysLow := sequencerStep_rst s.clock _ ▸ hrst.pop
    rw [← hcmds]
    exact ih hrun (sequencerStep_busy (s := s.clock) hbusy hsame) hlow (by rw [hcmds, hwait]) (hresp.trans hsame.symm)

/-- A poll that goes ahead completes: its one response is given, the block is idle, the lines are as they have to be for
another poll, and a word that the host presents next still waits. -/
theorem poll_completes {s : State} (hs : s.Inv) (hgo : s.PollGoesAhead) :
    ∃ n t, Reaches s n t ∧ t.Undisturbed ∧ RestsAs t s.completed ∧
      t.rsp = some ⟨.ok, 0#16, decodeSamples s.samples⟩ ∧
      (waiting s.cmds.tail = s.cmds.tail → t.cmds = s.cmds.tail) := by
  obtain ⟨n, t, hrun, ht, hi⟩ := runsTo_polled hs hgo
  obtain ⟨hidle, ⟨w, hw, hpoll⟩, hrst, -⟩ := hgo
  have haccept : step s = .next (s.accept.latchFrame.goto .ceHi) := by
    rw [step_accept hrst.level hidle hw, hpoll]
    rfl
  have hlast : RestsAs t s.polled := .of_inside_eq hi
  have hend := step_pollEnds ht.1.level ⟨hlast.phase, hlast.hold, hlast.oClk, hlast.idx⟩
  rw [show t.cur = decodeSamples s.samples from hlast.cur] at hend
  have hreach : Reaches s (n + 1 + 1) _ := ⟨_, haccept, hrun.trans ⟨_, hend, rfl⟩⟩
  refine ⟨_, _, hreach, ⟨ht.1.pop, ht.2⟩, .of_inside_eq ?_, rfl, fun hwait => ?_⟩
  · calc ((t.clock.respond _).goto .idle).inside
      _ = ((t.inside.respond _).goto .idle).inside := rfl
      _ = s.completed.rested := by rw [hi]; rfl
  · have hcmds : t.cmds = s.cmds.tail := hrun.cmds_eq_of_responses_eq nofun hrst.pop hwait hlast.responses
    exact (congrArg waiting hcmds).trans hwait

/-- Settles O38: the fields of the state in which the poll completes. -/
theorem pollRunsToItsResponse : Obligations.PollRunsToItsResponse := by
  intro s hs hgo
  obtain ⟨n, t, hrun, -, ht, hrsp, -⟩ := poll_completes hs hgo
  exact ⟨n, t, hrun, ht.phase, ht.cur, ht.prev, ht.pw, ht.idx, ht.hold, ht.oLoad, ht.oClk, ht.oCe, ht.chipCount,
    ht.data, ht.draws, ht.trace, hrsp, ht.responses⟩

/-- Settles O39: the second word waits for the end of the first poll, and that poll leaves the block ready for it. -/
theorem twoPollsLeaveTheTwoFrames : Obligations.TwoPollsLeaveTheTwoFrames := by
  intro s w w' cs hs hgo hcmds hpoll
  obtain ⟨m, u, hrun, ⟨hrst, htick⟩, hu, -, hwait⟩ := poll_completes hs hgo
  have hnext : u.cmds = some w' :: cs := by
    rw [hwait (by rw [hcmds]; rfl), hcmds, List.tail_cons]
  have hgo' : u.PollGoesAhead := ⟨hu.phase, ⟨w', presented_eq_some.2 ⟨cs, hnext⟩, hpoll⟩, hrst, htick⟩
  obtain ⟨n, t, hrun', -, ht, -⟩ := poll_completes (hrun.preserves everyStepKeepsTheInvariant hs) hgo'
  have hsamples : u.samples = answersFrom (s.data.drop s.width) (s.draws + s.width) s.width := by
    rw [State.samples, State.width, show u.chipCount = s.chipCount from hu.chipCount,
      show u.data = s.data.drop s.width from hu.data, show u.draws = s.draws + s.width from hu.draws]
    rfl
  have hfirst : u.cur = decodeSamples s.samples := hu.cur
  have hprev : t.prev = decodeSamples s.samples := ht.prev.trans hfirst
  have hcur : t.cur = decodeSamples u.samples := ht.cur
  have hresp : u.responses = s.responses ++ [⟨.ok, 0x0000#16, decodeSamples s.samples⟩] := hu.responses
  have hresp' : t.responses = u.responses ++ [⟨.ok, 0x0000#16, decodeSamples u.samples⟩] := ht.responses
  refine ⟨m + n, t, hrun.trans hrun', ht.phase, hprev, hsamples ▸ hcur, ?_⟩
  rw [hprev, hcur, hresp', hresp, List.append_assoc]
  rfl

/-! ### The reference chain -/

/-- With the load line high and the clock enabled, a clock pulse shifts the chain once (G1). -/
theorem Chain.after_clockPulse {c : Chain} (hload : c.load = true) (hclk : c.clk = false) (hce : c.ce = false) :
    (c.after (.out .clk true)).after (.out .clk false) = c.shift := by
  simp [Chain.after, Chain.shift, hload, hclk, hce]

/-- In the events of one bit the chain gives its last element and is then shifted. -/
theorem Chain.gives_bitTrace {c : Chain} (hload : c.load = true) (hclk : c.clk = false) (hce : c.ce = false) (P : Arg)
    (b : Bool) (es : List PinEvent) :
    c.Gives (bitTrace P b ++ es) ↔ c.sr.getLast? = some b ∧ c.shift.Gives es := by
  rw [← Chain.after_clockPulse hload hclk hce]
  rfl

/-- Of a register that ends in `R` reversed, the bits of a poll are `R`: each pulse moves the next of them to the end
and something into the front. -/
theorem Chain.samples_eq_of_gives {c : Chain} {P : Arg} {S R l : Bits} (hload : c.load = true) (hclk : c.clk = false)
    (hce : c.ce = false) (hsr : c.sr = l ++ R.reverse) (hlen : R.length = S.length)
    (hgives : c.Gives (S.flatMap (bitTrace P))) : S = R := by
  induction S generalizing c R l with
  | nil => exact (List.eq_nil_of_length_eq_zero hlen).symm
  | cons b S ih =>
    obtain ⟨r, R, rfl⟩ := List.exists_cons_of_length_eq_add_one hlen
    rw [List.flatMap_cons, Chain.gives_bitTrace hload hclk hce] at hgives
    obtain ⟨hlast, hgives⟩ := hgives
    have hsr' : c.sr = (l ++ R.reverse) ++ [r] := by simp [hsr]
    have hshift : c.shift.sr = (c.serIn :: l) ++ R.reverse := by simp [Chain.shift, hsr']
    obtain rfl : r = b := by simpa [hsr'] using hlast
    rw [ih (c := c.shift) hload hclk hce hshift (Nat.succ.inj hlen) hgives]

/-- The chain when the frame latch is over: its inputs loaded, its clock enabled. -/
def Chain.loaded (c : Chain) : Chain := { c with sr := c.ext, load := true, ce := false }

/-- The levels before the first sample load the chain, whatever it held, and whether or not the first of them shifted it
(93_implementation_defined.md G1). -/
theorem Chain.after_frameLatch (c : Chain) :
    (((c.after (.out .ce true)).after (.out .load false)).after (.out .load true)).after (.out .ce false) =
      c.loaded := by
  simp only [Chain.after]
  split <;> rfl

theorem Chain.gives_pollTrace (c : Chain) (P : Arg) (S : Bits) :
    c.Gives (pollTrace P S) ↔ c.loaded.Gives (S.flatMap (bitTrace P)) := by
  rw [← c.after_frameLatch]
  rfl

/-- Settles O43: the poll stores the samples in reverse, and so did the chain give its inputs. -/
theorem pollReadsTheReferenceChain : Obligations.PollReadsTheReferenceChain := by
  intro s c hs hgo _ hext _ hclk _ hgives
  have ⟨_, _, ⟨_, _, hclkLow, _⟩, _⟩ := hs
  have ⟨hidle, _⟩ := hgo
  obtain ⟨n, t, hrun, -, ht, -⟩ := poll_completes hs hgo
  have hsamples : s.samples = c.ext.reverse :=
    Chain.samples_eq_of_gives (c := c.loaded) (l := []) rfl (hclk.trans (hclkLow (hidle ▸ nofun))) rfl
      (by simp [Chain.loaded]) (by simp [hext, samples_length]) ((c.gives_pollTrace _ _).1 hgives)
  have hresp : t.responses = s.responses ++ [⟨.ok, 0x0000#16, decodeSamples s.samples⟩] := ht.responses
  refine ⟨n, t, hrun, ht.phase, by simp [hresp], ?_⟩
  calc t.cur = decodeSamples s.samples := ht.cur
    _ = c.ext := by rw [hsamples, decodeSamples, List.reverse_reverse]

end Sys2Proof.Machine
end

