-- ==== Sys2Proof/Proofs/Queries.lean ====
section
/-! PROOFS. The query commands (41_queries.md): what each of them responds, said once as a function of the two vectors and
their width; with it the laws of the queries, and that their answers stay the same until a poll or a reset writes the
vectors. -/

namespace Sys2Proof.Machine

open Sys2Proof

/-! ### The response of a query -/

/-- What an indexed query with the answer `b` responds, of vectors of `W` elements (41_queries.md R83). -/
def indexedResponse (W i : Nat) (b : Bool) : Response :=
  if i < W then ⟨.ok, boolData b, zeros W⟩ else ⟨.indexRange, 0x0000#16, zeros W⟩

theorem indexedResponse_inRange {W i : Nat} (h : i < W) (b : Bool) :
    indexedResponse W i b = ⟨.ok, boolData b, zeros W⟩ := if_pos h

theorem indexedResponse_outOfRange {W i : Nat} (h : W ≤ i) (b : Bool) :
    indexedResponse W i b = ⟨.indexRange, 0x0000#16, zeros W⟩ := if_neg (Nat.not_lt.2 h)

/-- What each of the seven queries responds: a function of the two vectors and their width, and of nothing else
(41_queries.md R85). The other commands are no queries. -/
def queryResponse (W : Nat) (cur prev : Bits) : Instr → Option Response
  | .state i => some (indexedResponse W i (readBit cur i))
  | .last i => some (indexedResponse W i (readBit prev i))
  | .changed i => some (indexedResponse W i (readBit cur i ^^ readBit prev i))
  | .changedAny => some ⟨.ok, boolData (cur != prev), zeros W⟩
  | .pressed i => some (indexedResponse W i (!readBit prev i && readBit cur i))
  | .released i => some (indexedResponse W i (readBit prev i && !readBit cur i))
  | .rawState => some ⟨.ok, 0x0000#16, cur⟩
  | _ => none

/-- What the query `q` responds in the state `s`. -/
def State.queryResponse (s : State) (q : Instr) : Option Response :=
  Machine.queryResponse s.width s.cur s.prev q

theorem indexedQuery_eq_respond (s : State) (i : Nat) (b : Bool) :
    s.indexedQuery i b = s.respond (indexedResponse s.width i b) := by
  rcases Nat.lt_or_ge i s.width with h | h
  · rw [indexedQuery_inRange h, indexedResponse_inRange h, boolData_eq]
  · rw [indexedQuery_outOfRange h, indexedResponse_outOfRange h]

/-- A query gives its response and does nothing else (41_queries.md R83). -/
theorem exec_query {q : Instr} {s : State} {a : Response} (h : s.queryResponse q = some a) :
    exec q s = .next (s.respond a) := by
  cases q <;> cases h
  case state | last | changed | pressed | released => exact congrArg _ (indexedQuery_eq_respond s _ _)
  case changedAny =>
    rw [← boolData_eq]
    rfl
  case rawState => rfl

theorem answers_query_iff {q : Instr} {s : State} {a : Response} (h : s.queryResponse q = some a) (r : Response) :
    Answers q s r ↔ r = a := by
  rw [answers_iff (exec_query h), State.respond_rsp, Option.some.injEq, eq_comm]

theorem answers_of_query {q : Instr} {s : State} {a : Response} (h : s.queryResponse q = some a) : Answers q s a :=
  (answers_query_iff h a).2 rfl

/-- What a valid index answers to an indexed query. -/
theorem answers_of_inRange {q : Instr} {s : State} {i : Nat} {b : Bool} (hi : i < s.width)
    (h : s.queryResponse q = some (indexedResponse s.width i b)) :
    Answers q s ⟨.ok, boolData b, List.replicate s.width false⟩ :=
  answers_of_query (h.trans (congrArg some (indexedResponse_inRange hi b)))

/-- What an index from `WIDTH` on answers to an indexed query (41_queries.md R83). -/
theorem answers_of_outOfRange {q : Instr} {s : State} {i : Nat} {b : Bool} (hi : s.width ≤ i)
    (h : s.queryResponse q = some (indexedResponse s.width i b)) :
    Answers q s ⟨.indexRange, 0x0000#16, List.replicate s.width false⟩ :=
  answers_of_query (h.trans (congrArg some (indexedResponse_outOfRange hi b)))

/-- The data word of an indexed query at a valid index. -/
theorem data_of_answers_inRange {q : Instr} {s : State} {i : Nat} {b : Bool} {r : Response} (hi : i < s.width)
    (h : s.queryResponse q = some (indexedResponse s.width i b)) (hr : Answers q s r) : r.data = boolData b := by
  rw [(answers_query_iff h r).1 hr, indexedResponse_inRange hi]

theorem onlyResponds_of_query {q : Instr} {s : State} {a : Response} (h : s.queryResponse q = some a) :
    ∃ t, exec q s = .next t ∧ OnlyResponds s t a :=
  ⟨_, exec_query h, onlyResponds_respond s a⟩

/-! ### The seven commands -/

/-- The two clauses of an indexed query, of a valid index and of any other. -/
theorem onlyResponds_of_indexedQuery {q : Instr} {s : State} {i : Nat} {b : Bool}
    (h : s.queryResponse q = some (indexedResponse s.width i b)) :
    (i < s.width → ∃ t, exec q s = .next t ∧ OnlyResponds s t ⟨.ok, boolData b, List.replicate s.width false⟩) ∧
    (s.width ≤ i → ∃ t, exec q s = .next t ∧
      OnlyResponds s t ⟨.indexRange, 0x0000#16, List.replicate s.width false⟩) :=
  ⟨fun hi => onlyResponds_of_query (h.trans (congrArg some (indexedResponse_inRange hi b))),
    fun hi => onlyResponds_of_query (h.trans (congrArg some (indexedResponse_outOfRange hi b)))⟩

/-- Settles O13: the bit is the one read from `cur`. -/
theorem stateAnswersTheCurrentBit : Obligations.StateAnswersTheCurrentBit :=
  ⟨decode_append (.state 0), fun _ _ => onlyResponds_of_indexedQuery rfl⟩

/-- Settles O14: the bit is the one read from `prev`. -/
theorem lastAnswersThePreviousBit : Obligations.LastAnswersThePreviousBit :=
  ⟨decode_append (.last 0), fun _ _ => onlyResponds_of_indexedQuery rfl⟩

/-- Settles O15: the exclusive or of two bits says whether they differ. -/
theorem changedAnswersWhetherTheBitsDiffer : Obligations.ChangedAnswersWhetherTheBitsDiffer := by
  have hdiffer : ∀ S L : Bool, (S ^^ L) = decide (S ≠ L) := by decide
  exact ⟨decode_append (.changed 0), fun s i => hdiffer _ _ ▸ onlyResponds_of_indexedQuery rfl⟩

/-- Settles O17: the bit says that `prev` has 0 and `cur` has 1. -/
theorem pressedAnswersARisingEdge : Obligations.PressedAnswersARisingEdge := by
  have hrising : ∀ L S : Bool, (!L && S) = decide (L = false ∧ S = true) := by decide
  exact ⟨decode_append (.pressed 0), fun s i => hrising _ _ ▸ onlyResponds_of_indexedQuery rfl⟩

/-- Settles O18: the bit says that `prev` has 1 and `cur` has 0. -/
theorem releasedAnswersAFallingEdge : Obligations.ReleasedAnswersAFallingEdge := by
  have hfalling : ∀ L S : Bool, (L && !S) = decide (L = true ∧ S = false) := by decide
  exact ⟨decode_append (.released 0), fun s i => hfalling _ _ ▸ onlyResponds_of_indexedQuery rfl⟩

/-- Settles O19: the vector field carries `cur` as it is. -/
theorem rawStateAnswersTheWholeVector : Obligations.RawStateAnswersTheWholeVector :=
  ⟨decode_append .rawState, fun _ => onlyResponds_of_query rfl⟩

/-- Two vectors of one length differ exactly where some element does. -/
theorem bne_iff_exists_readBit_ne {v w : Bits} (hl : v.length = w.length) :
    (v != w) = true ↔ ∃ i < v.length, readBit v i ≠ readBit w i := by
  rw [bne_iff_ne]
  refine ⟨fun hne => ?_, fun ⟨i, _, hi⟩ heq => hi (heq ▸ rfl)⟩
  by_contra! hsame
  exact hne (vec_ext hl hsame)

/-- `CHANGED_ANY` compares the vectors, which is to compare them at every valid index (41_queries.md R79). -/
theorem State.Inv.bne_iff {s : State} (hs : s.Inv) :
    (s.cur != s.prev) = true ↔ ∃ i < s.width, readBit s.cur i ≠ readBit s.prev i := by
  obtain ⟨⟨-, -, hcur, hprev, -⟩, -⟩ := hs
  rw [← hcur]
  exact bne_iff_exists_readBit_ne (hcur.trans hprev.symm)

/-- Settles O16: the vectors have `WIDTH` elements, so they differ exactly where some valid index tells them apart. -/
theorem changedAnyAnswersWhetherSomeBitDiffers : Obligations.ChangedAnyAnswersWhetherSomeBitDiffers := by
  refine ⟨decode_append .changedAny, fun s hs => ?_⟩
  obtain ⟨t, hexec, ht⟩ := onlyResponds_of_query (s := s) (q := .changedAny) rfl
  refine ⟨t, _, hexec, ht, fun hdiff => ?_, fun hsame => ?_⟩
  · exact congrArg boolData (hs.bne_iff.2 hdiff)
  · have hequal : ¬ (s.cur != s.prev) = true := fun hne =>
      let ⟨i, hi, hdiff⟩ := hs.bne_iff.1 hne
      hdiff (hsame i hi)
    exact congrArg boolData (Bool.eq_false_iff.2 hequal)

/-! ### The laws of the queries -/

theorem boolData_eq_one_iff (b : Bool) : boolData b = 0x0001#16 ↔ b = true := by
  cases b <;> decide

/-- The truth table (41_queries.md R84): `CHANGED`, `PRESSED` and `RELEASED` as functions of the previous bit and the
current one. -/
theorem query_truthTable (L S : Bool) :
    (L, S, S ^^ L, !L && S, L && !S) ∈ [(false, false, false, false, false), (false, true, true, true, false),
      (true, false, true, false, true), (true, true, false, false, false)] := by
  cases L <;> cases S <;> decide

/-- `CHANGED_ANY` is the OR over all valid `i` of `CHANGED i` (41_queries.md R84 (d)). -/
theorem State.Inv.changedAny_iff {s : State} (hs : s.Inv) {r : Response} (hr : Answers .changedAny s r) :
    r.data = 0x0001#16 ↔ ∃ i r', i < s.width ∧ Answers (.changed i) s r' ∧ r'.data = 0x0001#16 := by
  rw [(answers_query_iff rfl r).1 hr, boolData_eq_one_iff, hs.bne_iff]
  constructor
  · rintro ⟨i, hi, hdiff⟩
    exact ⟨i, _, hi, answers_of_inRange hi rfl, (boolData_eq_one_iff _).2 (bne_iff_ne.2 hdiff)⟩
  · rintro ⟨i, r', hi, hr', hone⟩
    rw [data_of_answers_inRange hi rfl hr', boolData_eq_one_iff] at hone
    exact ⟨i, hi, bne_iff_ne.1 hone⟩

/-- Settles O21: an index at which the vectors have elements is a valid one, and there the answers are a row of the truth
table. -/
theorem queryLaws : Obligations.QueryLaws := by
  intro s hs zero
  refine ⟨fun i L S hL hS => ?_, fun r hr => hs.changedAny_iff hr, fun r i r' hi hr hr' => ?_⟩
  · obtain ⟨⟨-, -, hcur, -⟩, -⟩ := hs
    have hi : i < s.width := hcur ▸ (List.getElem?_eq_some_iff.1 hS).1
    obtain rfl : readBit s.prev i = L := by simp [readBit, hL]
    obtain rfl : readBit s.cur i = S := by simp [readBit, hS]
    exact ⟨_, _, _, query_truthTable _ _, answers_of_inRange hi rfl, answers_of_inRange hi rfl,
      answers_of_inRange hi rfl, answers_of_inRange hi rfl, answers_of_inRange hi rfl⟩
  · rw [data_of_answers_inRange hi rfl hr', (answers_query_iff rfl r).1 hr]
    rfl

/-! ### Between polls -/

/-- Where the two vectors and their width are the same, each query answers the same. -/
theorem answers_query_congr {q : Instr} {s t : State} (hq : (s.queryResponse q).isSome) (hwidth : t.width = s.width)
    (hvectors : SameVectors s t) (r : Response) : Answers q s r ↔ Answers q t r := by
  obtain ⟨a, ha⟩ := Option.isSome_iff_exists.1 hq
  obtain ⟨hcur, hprev⟩ := hvectors
  have ha' : t.queryResponse q = some a := by rw [← ha, State.queryResponse, hwidth, hcur, hprev, State.queryResponse]
  rw [answers_query_iff ha, answers_query_iff ha']

/-- The block is idle and neither a `POLL` nor a reset is to come. -/
def State.BetweenPolls (s : State) : Prop :=
  s.phase = .idle ∧ s.rst.AlwaysLow ∧ ∀ w, some w ∈ s.cmds → decode w ≠ .poll

theorem mem_of_mem_waiting {c : Option Word} {cs : List (Option Word)} (h : c ∈ waiting cs) : c ∈ cs := by
  cases cs with
  | nil => exact h
  | cons d cs =>
    cases d with
    | none => exact List.mem_cons_of_mem _ h
    | some w => exact h

/-- No command touches the port `rst`. -/
theorem exec_rst {i : Instr} {s t : State} (h : exec i s = .next t) : t.rst = s.rst := by
  obtain ⟨-, rfl⟩ | ⟨v, -, rfl⟩ | ⟨-, -, r, rfl⟩ := exec_cases h <;> rfl

/-- Between polls a step is a pause or a command other than `POLL`: the block stays between polls, and the vectors stay
as they are. -/
theorem State.BetweenPolls.step {s t : State} (hs : s.BetweenPolls) (h : step s = .next t) :
    t.BetweenPolls ∧ SameVectors s t := by
  obtain ⟨hidle, hlow, hcmds⟩ := hs
  obtain ⟨hhigh, -⟩ | ⟨-, -, -, rfl⟩ | ⟨w, -, -, hw, hexec⟩ | ⟨-, hbusy, -⟩ := step_cases h
  · exact absurd (hlow.level.symm.trans hhigh) Bool.false_ne_true
  · exact ⟨⟨hidle, hlow.pop, fun w hw => hcmds w (mem_of_mem_waiting hw)⟩, rfl, rfl⟩
  · obtain ⟨cs, hcs⟩ := presented_eq_some.1 hw
    have hpoll : decode w ≠ .poll := hcmds w (hcs ▸ List.mem_cons_self)
    have hphase : t.phase = .idle := (exec_phase hexec).trans ((if_neg hpoll).trans hidle)
    have hrst : t.rst = s.rst.pop := exec_rst hexec
    have hrest : t.cmds = s.cmds.tail := exec_cmds hexec
    have hvectors : SameVectors s.accept t := (exec_vectors hexec).resolve_left fun ⟨h, _⟩ => hpoll h
    exact ⟨⟨hphase, hrst ▸ hlow.pop, fun v hv => hcmds v (List.mem_of_mem_tail (hrest ▸ hv))⟩, hvectors⟩
  · exact absurd hidle hbusy

/-- Settles O22: the answers are a function of the vectors and their width, which no step between polls writes. -/
theorem betweenPollsQueriesAnswerTheSame : Obligations.BetweenPollsQueriesAnswerTheSame := by
  intro s t n hidle hlow hcmds hrun
  obtain ⟨⟨hidle', -⟩, hvectors⟩ := hrun.preserves (P := fun u => u.BetweenPolls ∧ SameVectors s u)
    (fun u v ⟨hu, hcur, hprev⟩ hv =>
      have ⟨hv', hcur', hprev'⟩ := hu.step hv
      ⟨hv', hcur'.trans hcur, hprev'.trans hprev⟩)
    ⟨⟨hidle, hlow, hcmds⟩, rfl, rfl⟩
  have hwidth : t.width = s.width := congrArg Config.width hrun.chipCount_eq
  refine ⟨hidle', fun i r => ?_⟩
  simp only [List.forall_mem_cons]
  exact ⟨answers_query_congr rfl hwidth hvectors r, answers_query_congr rfl hwidth hvectors r,
    answers_query_congr rfl hwidth hvectors r, answers_query_congr rfl hwidth hvectors r,
    answers_query_congr rfl hwidth hvectors r, answers_query_congr rfl hwidth hvectors r,
    answers_query_congr rfl hwidth hvectors r, nofun⟩

/-! ### Before the first poll completes -/

/-- As long as no poll completes after a reset: `prev` is zero, since a poll in flight has put the old `cur` there, and in
`IDLE` so is `cur` (70_reset_and_hazards.md R108). -/
def State.ZeroFrames (s : State) : Prop :=
  s.prev = zeros s.width ∧ (s.phase = .idle → s.cur = zeros s.width)

/-- With `rst` high a step is a reset of the block (70_reset_and_hazards.md R106). -/
theorem step_reset {s : State} (hrst : s.rst.level = true) : step s = .next s.clock.resetBlock := by
  simp [step, hrst]

theorem zeroFrames_of_reset {s t : State} (hrst : s.rst.level = true) (h : step s = .next t) : t.ZeroFrames := by
  cases (step_reset hrst).symm.trans h
  exact ⟨rfl, fun _ => rfl⟩

/-- The frames stay zero unless the step completes a poll: with `rst` low only an accepted `POLL` and a poll in flight
write them, and what that poll has sampled is seen only at its end. -/
theorem State.ZeroFrames.step {s t : State} (hs : s.ZeroFrames) (h : step s = .next t)
    (hopen : ¬(s.rst.level = false ∧ s.phase ≠ .idle ∧ t.phase = .idle)) : t.ZeroFrames := by
  obtain ⟨hprev, hcur⟩ := hs
  cases hrst : s.rst.level with
  | true => exact zeroFrames_of_reset hrst h
  | false =>
    obtain ⟨hprevWritten, hcurWritten⟩ := onlyPollOrResetChangesTheVectors s t h hrst
    have hwidth : t.width = s.width := congrArg Config.width (step_chipCount h)
    rw [State.ZeroFrames, hwidth]
    refine ⟨?_, fun hidle' => ?_⟩
    · by_cases hsame : t.prev = s.prev
      · exact hsame.trans hprev
      · obtain ⟨hidle, -, hlatch⟩ := hprevWritten hsame
        exact hlatch.trans (hcur hidle)
    · have hidle : s.phase = .idle := by_contra fun hbusy => hopen ⟨hrst, hbusy, hidle'⟩
      by_cases hsame : t.cur = s.cur
      · exact hsame.trans (hcur hidle)
      · obtain ⟨-, -, hzero⟩ | ⟨hsample, -⟩ := hcurWritten hsame
        · exact hzero
        · exact absurd (hidle.symm.trans hsample) nofun

theorem ReachesBeforePollCompletes.zeroFrames {s t : State} {n : Nat} (h : ReachesBeforePollCompletes s n t)
    (hs : s.ZeroFrames) : t.ZeroFrames := by
  induction n generalizing s with
  | zero => exact (show t = s from h) ▸ hs
  | succ n ih =>
    obtain ⟨u, hu, hopen, hrun⟩ := h
    exact ih hrun (hs.step hu hopen)

/-- Of zero vectors each indexed query has the answer 0. -/
theorem queryResponse_zeros (W i : Nat) :
    ∀ q ∈ [Instr.state i, .last i, .changed i, .pressed i, .released i],
      queryResponse W (zeros W) (zeros W) q = some (indexedResponse W i false) := by
  simp [queryResponse]

/-- Settles O12: while no poll completes the frames stay zero, and of zero frames every query answers zero. -/
theorem beforeTheFirstPollEverythingIsZero : Obligations.BeforeTheFirstPollEverythingIsZero := by
  intro s t n hstart hrun hidle zero
  have hs : s.ZeroFrames := by
    obtain ⟨r, hrst, hr⟩ | ⟨-, hcur, hprev⟩ := hstart
    · exact zeroFrames_of_reset hrst hr
    · exact ⟨hprev, fun _ => hcur⟩
  obtain ⟨hprev, hcur⟩ := hrun.zeroFrames hs
  have hzeros (q : Instr) : t.queryResponse q = queryResponse t.width (zeros t.width) (zeros t.width) q := by
    rw [State.queryResponse, hcur hidle, hprev]
  refine ⟨fun i hi q hq => ?_, fun i hi q hq => ?_, answers_of_query ?_, answers_of_query (hzeros .rawState)⟩
  · exact answers_of_inRange hi ((hzeros q).trans (queryResponse_zeros t.width i q hq))
  · exact answers_of_outOfRange hi ((hzeros q).trans (queryResponse_zeros t.width i q hq))
  · simp [hzeros, queryResponse, boolData, zero, zeros]

end Sys2Proof.Machine
end

