-- ==== Sys2Proof/Proofs/PulseWidth.lean ====
section
/-! PROOFS. The pulse-width commands (42_pulse_width.md), and what the pulse width affects in a poll: the numbers inside
the `Wait`s of the pin trace, and nothing else. -/

namespace Sys2Proof.Machine

open Sys2Proof

/-! ### The two commands -/

/-- Settles O23: the command only responds, and the decoder reads no operand in its row. -/
theorem getPwAnswersThePulseWidth : Obligations.GetPwAnswersThePulseWidth :=
  ⟨decode_append .getPw, fun s => ⟨_, rfl, onlyResponds_respond s _⟩⟩

/-- Settles O24: to store the value and to respond are the whole effect of the command. -/
theorem setPwStoresAnyValue : Obligations.SetPwStoresAnyValue := by
  refine ⟨decode_append (.setPw 0#16), fun s v => ⟨_, rfl, ?_⟩⟩
  obtain ⟨⟨hvectors, hpw, hsequencer, hpins⟩, houtside, htrace, hresponds⟩ :=
    onlyResponds_respond (s.setPw v) ⟨.ok, 0x0000#16, zeros s.width⟩
  exact ⟨hpw, hvectors, hsequencer, hpins, houtside, htrace, hresponds⟩

/-! ### Two polls that differ in the pulse width -/

/-- Without the numbers inside its `Wait`s the trace of a poll is that of the same poll with pulse width 0, so it depends
on the samples alone (40_poll.md R69). -/
theorem map_withoutWidth_pollTrace (P : Arg) (S : Bits) :
    (pollTrace P S).map PinEvent.withoutWidth = pollTrace 0#16 S := by
  have hbit (b : Bool) : (bitTrace P b).map PinEvent.withoutWidth = bitTrace 0#16 b := rfl
  rw [pollTrace, List.map_append, List.map_flatMap, funext hbit]
  rfl

/-- With another pulse width a completed poll leaves the same pin events but for the numbers inside the `Wait`s. -/
theorem completed_trace_withoutWidth (s : State) (v : Arg) :
    s.completed.trace.map PinEvent.withoutWidth = (s.setPw v).completed.trace.map PinEvent.withoutWidth := by
  show (s.trace ++ pollTrace s.pw s.samples).map _ = (s.trace ++ pollTrace v s.samples).map _
  rw [List.map_append, List.map_append, map_withoutWidth_pollTrace, map_withoutWidth_pollTrace]

/-- A completed poll has put its response on the record. -/
theorem completed_responses_length (s : State) : s.responses.length < s.completed.responses.length := by
  simp [State.completed, State.polled]

/-- Settles O41: both polls complete, and the states they complete in are the same but for `pw`, the numbers inside the
`Wait`s and what the outside drives. -/
theorem pulseWidthAffectsOnlyTheWaits : Obligations.PulseWidthAffectsOnlyTheWaits := by
  intro s v hs hgo
  obtain ⟨n, t, hrun, -, ht, -⟩ := poll_completes hs hgo
  obtain ⟨n', t', hrun', -, ht', -⟩ := poll_completes (hs.setPw hgo.1 v) hgo
  have hresp : t.responses = t'.responses := ht.responses.trans ht'.responses.symm
  have hcur : t.cur = t'.cur := ht.cur.trans ht'.cur.symm
  have hprev : t.prev = t'.prev := ht.prev.trans ht'.prev.symm
  have hwidth : t'.width = t.width := congrArg Config.width (ht'.chipCount.trans ht.chipCount.symm)
  have hpins : SamePins t t' :=
    ⟨ht'.oLoad.trans ht.oLoad.symm, ht'.oClk.trans ht.oClk.symm, ht'.oCe.trans ht.oCe.symm⟩
  have htrace : t.trace.map PinEvent.withoutWidth = t'.trace.map PinEvent.withoutWidth := by
    rw [ht.trace, ht'.trace, completed_trace_withoutWidth s v]
  refine ⟨n, t, n', t', hrun, hrun', ht.phase, ht'.phase, ?_, hresp, hcur, hprev, hpins, htrace, fun i r q hq => ?_⟩
  · rw [ht.responses]
    exact completed_responses_length s
  · have hquery : (t.queryResponse q).isSome := by
      revert q
      simp [State.queryResponse, queryResponse]
    exact answers_query_congr hquery hwidth ⟨hcur.symm, hprev.symm⟩ r

end Sys2Proof.Machine
end

section
/-! PROOFS. Exceptions (60_exceptions.md): no step stops the machine, the build refuses the chip counts that have no
block, and an index out of range is trapped. -/

namespace Sys2Proof.Machine

open Sys2Proof

/-! ### No step stops -/

/-- Settles O8: a reset, a pause and a busy step each have a next state outright; an accepted command has one because no
command stops. -/
theorem everyStepGoesOn : Obligations.EveryStepGoesOn := by
  intro s
  cases hrst : s.rst.level with
  | true => exact ⟨_, step_reset hrst⟩
  | false =>
    by_cases hidle : s.phase = .idle
    · cases hw : s.presented with
      | none => exact ⟨_, step_pause hrst hidle hw⟩
      | some w =>
        obtain ⟨t, ht⟩ := exec_goesOn (decode w) s.accept
        exact ⟨t, (step_accept hrst hidle hw).trans ht⟩
    · exact ⟨_, step_busy hrst hidle⟩

/-! ### The chip counts that are built -/

theorem chipCountError_of_tooMany {n : Nat} (h : Config.maxChipCount < n) :
    Config.chipCountError n = some .tooManyChips := by
  rw [Config.chipCountError, if_neg (Nat.ne_zero_of_lt h), if_pos h]

theorem chipCountError_of_legal {n : Nat} (hmin : 1 ≤ n) (hmax : n ≤ Config.maxChipCount) :
    Config.chipCountError n = none := by
  rw [Config.chipCountError, if_neg (Nat.one_le_iff_ne_zero.1 hmin), if_neg (Nat.not_lt.2 hmax)]

/-- The build is refused for the reason that the check of the chip count gives (60_exceptions.md R93). -/
theorem launch_of_error {n : Nat} {e : Config.ConfigError} (h : Config.chipCountError n = some e) :
    launch n = .fault (.configError e) := by
  rw [launch, h]

/-- A chip count that passes the check gives the reset state (00_scope.md R13). -/
theorem launch_of_noError {n : Nat} (h : Config.chipCountError n = none) : launch n = .next (State.resetWith n) := by
  rw [launch, h]

/-- Settles O10: the three ranges are those that the check of the chip count tells apart. -/
theorem onlyLegalChipCountsAreBuilt : Obligations.OnlyLegalChipCountsAreBuilt :=
  ⟨launch_of_error rfl, fun _ h => launch_of_error (chipCountError_of_tooMany h),
    fun _ hmin hmax => launch_of_noError (chipCountError_of_legal hmin hmax)⟩

/-! ### An index out of range -/

/-- Settles O20: each of the five queries has its own statement with a clause for the indices from `WIDTH` on. -/
theorem indexOutOfRangeIsTrapped : Obligations.IndexOutOfRangeIsTrapped := by
  intro s i hi
  simp only [List.forall_mem_cons]
  exact ⟨(stateAnswersTheCurrentBit.2 s i).2 hi, (lastAnswersThePreviousBit.2 s i).2 hi,
    (changedAnswersWhetherTheBitsDiffer.2 s i).2 hi, (pressedAnswersARisingEdge.2 s i).2 hi,
    (releasedAnswersAFallingEdge.2 s i).2 hi, nofun⟩

end Sys2Proof.Machine
end

section
/-! PROOFS. Reset and hazards (70_reset_and_hazards.md): reset in every state, how long a poll takes at least, and so a
dead time reference, the first frame after reset, and the end of a run. -/

namespace Sys2Proof.Machine

open Sys2Proof

/-! ### The first frame -/

/-- Where the previous vector is zero, `PRESSED` reads the current bit and `RELEASED` reads 0, as R84's truth table has
it. -/
theorem queryResponse_of_prev_zeros (W i : Nat) (cur : Bits) :
    queryResponse W cur (zeros W) (.pressed i) = some (indexedResponse W i (readBit cur i)) ∧
    queryResponse W cur (zeros W) (.released i) = some (indexedResponse W i false) := by
  simp [queryResponse]

/-- Settles O40: the completed poll has moved the zero vector to `prev`. -/
theorem firstFrameReportsHighInputsAsPressed : Obligations.FirstFrameReportsHighInputsAsPressed := by
  intro s hs hgo hzero
  obtain ⟨n, t, hrun, -, ht, -⟩ := poll_completes hs hgo
  have hwidth : t.width = s.width := congrArg Config.width ht.chipCount
  have hprev : t.prev = zeros t.width := by
    rw [hwidth]
    exact ht.prev.trans hzero
  have hquery (q : Instr) : t.queryResponse q = queryResponse t.width t.cur (zeros t.width) q := by
    rw [State.queryResponse, hprev]
  refine ⟨n, t, hrun, ht.phase, ?_, ht.cur, fun i hi => ?_⟩
  · rw [ht.responses]
    exact completed_responses_length s
  · rw [← hwidth] at hi ⊢
    obtain ⟨hpressed, hreleased⟩ := queryResponse_of_prev_zeros t.width i t.cur
    exact ⟨answers_of_inRange hi ((hquery _).trans hpressed), answers_of_inRange hi ((hquery _).trans hreleased)⟩

/-! ### Time units -/

/-- The pulse of the coming step, and those of the steps after it. -/
theorem timeUnits_succ {s u : State} (htick : u.tick = s.tick.pop) (n : Nat) :
    s.timeUnits (n + 1) = s.tick.level.toNat + u.timeUnits n := by
  rw [State.timeUnits, State.timeUnits, htick, Line.levels]
  cases s.tick.level
  · simp
  · simp [Nat.add_comm 1]

/-- With a dead time reference no time passes. -/
theorem timeUnits_of_alwaysLow {s : State} (htick : s.tick.AlwaysLow) (n : Nat) : s.timeUnits n = 0 := by
  rw [State.timeUnits, List.count_eq_zero]
  generalize s.tick = l at htick
  induction n generalizing l with
  | zero => exact List.not_mem_nil
  | succ n ih => simpa [Line.levels, htick.level] using ih l.pop htick.pop

theorem sequencerStep_tick (s : State) (tick : Bool) : (s.sequencerStep tick).tick = s.tick := by
  by_cases hhold : s.hold = 0#16
  · obtain ⟨-, -, -, -, htick, -⟩ := seqPhase_keeps s
    rw [sequencerStep_free hhold, htick]
  · rw [sequencerStep_holding hhold, State.passTime_tick]

/-! ### How long a poll still takes -/

/-- How many holds the poll in flight has still to begin: two for the load pulse and two for each bit
(40_poll.md R69). -/
def State.holdsToCome (s : State) : Nat :=
  match s.phase with
  | .idle => 0
  | .ceHi | .ldLo => 2 + 2 * (s.idx + 1)
  | .ldHi => 1 + 2 * (s.idx + 1)
  | .ceLo | .sample | .ckHi => 2 * (s.idx + 1)
  | .ckLo => s.oClk.toNat + 2 * s.idx

/-- The time units that must pass before the poll in flight can end: what remains of the running hold, and `pw` for each
hold to come. -/
def State.timeLeft (s : State) : Nat := s.hold.toNat + s.pw.toNat * s.holdsToCome

/-- Between holds no time is lost: a step that loads the hold with `pw` has one hold less to come. -/
theorem seqPhase_timeLeft {s : State} (hhold : s.hold = 0#16) : (seqPhase s).timeLeft = s.timeLeft := by
  apply seqPhase_elim (motive := fun t => t.timeLeft = s.timeLeft)
  case idle => exact fun _ => rfl
  case ceHi | ceLo | sample =>
    intro hp
    simp [State.timeLeft, State.holdsToCome, hp]
  case ldLo | ldHi | ckHi =>
    intro hp
    simp +arith [State.timeLeft, State.holdsToCome, hp, hhold, Nat.mul_add]
  case clockFalls =>
    intro hp hclk
    simp [State.timeLeft, State.holdsToCome, hp, hclk, hhold, Nat.mul_add]
  case pollEnds =>
    intro hp hclk hidx
    simp [State.timeLeft, State.holdsToCome, hp, hclk, hidx]
  case nextBit =>
    intro hp hclk hidx
    simp [State.timeLeft, State.holdsToCome, hp, hclk, Nat.sub_one_add_one hidx]

/-- A busy step brings the end of the poll nearer by one time unit at most, and only when `tick` pulses. -/
theorem timeLeft_le_sequencerStep (s : State) (tick : Bool) :
    s.timeLeft ≤ tick.toNat + (s.sequencerStep tick).timeLeft := by
  by_cases hhold : s.hold = 0#16
  · rw [sequencerStep_free hhold, seqPhase_timeLeft hhold]
    exact Nat.le_add_left _ _
  · rw [sequencerStep_holding hhold]
    have hdown := toNat_sub_one_add_one hhold
    have hcome : (s.passTime tick).holdsToCome = s.holdsToCome := rfl
    rw [State.timeLeft, State.timeLeft, State.passTime_hold, State.passTime_pw, hcome]
    cases tick
    · simp
    · rw [if_pos rfl, Bool.toNat_true]
      omega

theorem State.AtPollEnd.timeLeft_eq_zero {s : State} (h : s.AtPollEnd) : s.timeLeft = 0 := by
  obtain ⟨hp, hhold, hclk, hidx⟩ := h
  simp [State.timeLeft, State.holdsToCome, hp, hhold, hclk, hidx]

/-- While fewer time units have passed than the poll in flight still takes, the block stays busy and gives no
response. -/
theorem busy_of_timeUnits_lt_timeLeft {s : State} {n : Nat} (hbusy : s.phase ≠ .idle) (hrst : s.rst.AlwaysLow)
    (htime : s.timeUnits n < s.timeLeft) : ∃ t, Reaches s n t ∧ t.phase ≠ .idle ∧ t.responses = s.responses := by
  induction n generalizing s with
  | zero => exact ⟨s, rfl, hbusy, rfl⟩
  | succ n ih =>
    have hstep := step_busy hrst.level hbusy
    have htick := sequencerStep_tick s.clock s.tick.level
    have hlow := sequencerStep_rst s.clock s.tick.level
    have hnearer : s.timeLeft ≤ _ := timeLeft_le_sequencerStep s.clock s.tick.level
    obtain ⟨-, -, hresp⟩ | ⟨hend, -⟩ := sequencerStep_response (s := s.clock) rfl s.tick.level
    · have hbusy' := sequencerStep_busy (s := s.clock) hbusy hresp
      rw [timeUnits_succ htick] at htime
      obtain ⟨t, hrun, ht, hresp'⟩ := ih hbusy' (hlow ▸ hrst.pop) (by omega)
      exact ⟨t, ⟨_, hstep, hrun⟩, ht, hresp'.trans hresp⟩
    · have hzero : s.timeLeft = 0 := hend.timeLeft_eq_zero
      omega

/-- The acceptance step of a `POLL` (40_poll.md R60). -/
theorem step_acceptPoll {s : State} (hrst : s.rst.level = false) (hidle : s.phase = .idle)
    (hpoll : ∃ w, s.presented = some w ∧ decode w = .poll) : step s = .next (s.accept.latchFrame.goto .ceHi) := by
  obtain ⟨w, hw, hdecode⟩ := hpoll
  rw [step_accept hrst hidle hw, hdecode]
  rfl

/-- From its acceptance a poll has all its holds to come. -/
theorem timeLeft_startPoll {s : State} (hs : s.Inv) (hidle : s.phase = .idle) :
    (s.latchFrame.goto .ceHi).timeLeft = s.pw.toNat * (2 + 2 * s.width) := by
  have ⟨⟨_, _, _, _, hidx, _⟩, _⟩ := hs
  have hwidth : s.width - 1 + 1 = s.width := Nat.sub_one_add_one (Nat.ne_zero_of_lt hidx)
  simp [State.timeLeft, State.holdsToCome, hs.hold_eq_zero_of_idle hidle, hwidth]

/-- After the step that accepts it a poll runs on without a response while fewer time units have passed than its holds
take. -/
theorem acceptedPoll_busy {s : State} {n : Nat} (hs : s.Inv) (hidle : s.phase = .idle)
    (hpoll : ∃ w, s.presented = some w ∧ decode w = .poll) (hrst : s.rst.AlwaysLow)
    (htime : s.timeUnits (n + 1) < s.pw.toNat * (2 + 2 * s.width)) :
    ∃ t, Reaches s (n + 1) t ∧ t.phase ≠ .idle ∧ t.responses = s.responses := by
  have hleft : (s.accept.latchFrame.goto .ceHi).timeLeft = _ := timeLeft_startPoll hs.accept hidle
  rw [timeUnits_succ (u := s.accept.latchFrame.goto .ceHi) rfl] at htime
  obtain ⟨t, hrun, ht⟩ := busy_of_timeUnits_lt_timeLeft (n := n) (s := s.accept.latchFrame.goto .ceHi) nofun hrst.pop
    (hleft ▸ (Nat.le_add_left _ _).trans_lt htime)
  exact ⟨t, ⟨_, step_acceptPoll hrst.level hidle hpoll, hrun⟩, ht⟩

/-- Settles O42: before the first step no response has been given, and after it the accepted poll has its holds to run. -/
theorem pollLastsAtLeastItsHolds : Obligations.PollLastsAtLeastItsHolds := by
  intro s n hs hidle hpoll hrst htime
  cases n with
  | zero => exact ⟨s, rfl, rfl⟩
  | succ n =>
    obtain ⟨t, hrun, -, hresp⟩ := acceptedPoll_busy hs hidle hpoll hrst htime
    exact ⟨t, hrun, hresp⟩

/-! ### A dead time reference -/

/-- Settles O34: no time passes, so it never comes to the time that the holds of the poll take. -/
theorem deadTimeReferenceKeepsTheBlockBusy : Obligations.DeadTimeReferenceKeepsTheBlockBusy := by
  intro s hs hidle hpoll hrst htick hpw n
  have hpos : 0 < s.pw.toNat := Nat.pos_of_ne_zero fun h => hpw (BitVec.eq_of_toNat_eq h)
  obtain ⟨t, hrun, hbusy, hresp⟩ := acceptedPoll_busy (n := n) hs hidle hpoll hrst (by
    rw [timeUnits_of_alwaysLow htick]
    exact Nat.mul_pos hpos (by omega))
  obtain ⟨-, -, -, -, hnoRsp⟩ := hrun.preserves everyStepKeepsTheInvariant hs
  have hvalid : t.rspValid = false := by simp [State.rspValid, hnoRsp hbusy]
  exact ⟨t, hrun, (cmdReady_eq_false_iff t).2 hbusy, hvalid, hresp⟩

/-! ### The end of a run -/

theorem State.runOver.presented_eq_none {s : State} (h : s.runOver) : s.presented = none := by
  obtain ⟨-, hnone⟩ := h
  rw [Option.eq_none_iff_forall_ne_some]
  intro w hw
  obtain ⟨cs, hcs⟩ := presented_eq_some.1 hw
  exact absurd (hnone (some w) (hcs ▸ List.mem_cons_self)) nofun

theorem State.runOver.clock {s : State} (h : s.runOver) : s.clock.runOver :=
  ⟨h.1, fun c hc => h.2 c (mem_of_mem_waiting hc)⟩

/-- Settles O51: every step is a pause, which moves on the lines and writes no register. -/
theorem finishedRunStaysFinished : Obligations.FinishedRunStaysFinished := by
  intro s n hover hrst
  induction n generalizing s with
  | zero => exact ⟨s, rfl, hover, ⟨⟨rfl, rfl⟩, rfl, ⟨rfl, rfl, rfl⟩, rfl, rfl, rfl⟩, rfl, rfl⟩
  | succ n ih =>
    have hpause : step s = .next s.clock := step_pause hrst.level hover.1 hover.presented_eq_none
    obtain ⟨t, hrun, ht⟩ := ih s.clock hover.clock hrst.pop
    exact ⟨t, ⟨_, hpause, hrun⟩, ht⟩

/-! ### Reset -/

/-- Settles O11: a step with `rst` high moves the lines on and writes every register, whatever the state. -/
theorem resetWinsInEveryState : Obligations.ResetWinsInEveryState := by
  intro s hrst
  refine ⟨_, step_reset hrst, rfl, rfl, rfl, rfl, rfl, rfl, rfl, rfl, rfl, ?_⟩
  simp [StepFrame, NoSample, NoResponse]

end Sys2Proof.Machine
end
